-- ==== Sys2Proof/Word.lean ====
section
/-! DEFINITION. The word types of the block and their plainest arithmetic: 64-bit words, 256-bit values as four
limbs, 512-bit values as eight limbs, element register numbers (spec/00_scope.md R6, R8, R9; spec/20_memory.md R58). -/

namespace Sys2Proof

/-- One 64-bit word: a limb, a `DATA` register, the value of a window access (R6 `LIMB_BITS`, R60). -/
abbrev Word := BitVec 64

/-- `LIMBMAX = 2^64 - 1` (R9). -/
abbrev limbMax : Word := BitVec.allOnes 64

/-- A 256-bit value as the limb array `v.l[0..3]`, least-significant limb first (R9, R58). -/
structure U256 where
  l0 : Word
  l1 : Word
  l2 : Word
  l3 : Word
  deriving DecidableEq, Repr

/-- The integer a limb array stands for: `l0 + l1*2^64 + l2*2^128 + l3*2^192` (R9). -/
def U256.toNat (v : U256) : Nat :=
  v.l0.toNat + v.l1.toNat * 2 ^ 64 + v.l2.toNat * 2 ^ 128 + v.l3.toNat * 2 ^ 192

/-- The limb array of an integer, taken modulo `2^256`: `l[i] = v[64*i+63 : 64*i]` (R9). -/
def U256.ofNat (n : Nat) : U256 :=
  ⟨BitVec.ofNat 64 n, BitVec.ofNat 64 (n / 2 ^ 64), BitVec.ofNat 64 (n / 2 ^ 128), BitVec.ofNat 64 (n / 2 ^ 192)⟩

/-- The value 0 as four limbs. -/
abbrev U256.zero : U256 := ⟨0, 0, 0, 0⟩

/-- Bit `i` of a 256-bit value (R8: bits are numbered from the least significant). -/
def U256.bit (v : U256) (i : Nat) : Bool := v.toNat.testBit i

/-- An 8-limb (512-bit) value `r0..r7`, least-significant limb first (R9; R6 `PRODUCT_LIMBS`). -/
structure U512 where
  r0 : Word
  r1 : Word
  r2 : Word
  r3 : Word
  r4 : Word
  r5 : Word
  r6 : Word
  r7 : Word
  deriving DecidableEq, Repr

/-- The integer an 8-limb value stands for: `sum r_i * 2^(64*i)` (R9). -/
def U512.toNat (v : U512) : Nat :=
  v.r0.toNat + v.r1.toNat * 2 ^ 64 + v.r2.toNat * 2 ^ 128 + v.r3.toNat * 2 ^ 192 +
    v.r4.toNat * 2 ^ 256 + v.r5.toNat * 2 ^ 320 + v.r6.toNat * 2 ^ 384 + v.r7.toNat * 2 ^ 448

/-- The number of an element register `F0..F15` (R6 `NFREG`, R71: an unsigned index `0..15`). -/
abbrev FReg := Fin 16

end Sys2Proof
end

