-- ==== Sys2Proof/Config.lean ====
section
/-! DEFINITION. What is fixed when the hardware is built: the constant ROM (spec/10_state.md R32, R33, R35), the OPEN
parameter `BASE` (spec/20_memory.md R50) and the inversion schedule `INV_SCHEDULE` (spec/44_inversion.md R191). -/

namespace Sys2Proof

/-- The modulus `q` as a number (R2). -/
def Config.q : Nat := 0x73eda753299d7d483339d80809a1d80553bda402fffe5bfeffffffff00000001

/-- `RADIX = 2^256` (R6, R12; spec/90_conflicts.md C1 keeps it apart from the stored constant `R`). -/
abbrev Config.radix : Nat := 2 ^ 256

/-- `MODULUS`, the limbs of `q` (R33). -/
def Config.modulus : U256 :=
  ⟨0xffffffff00000001, 0x53bda402fffe5bfe, 0x3339d80809a1d805, 0x73eda753299d7d48⟩

/-- `R = 2^256 mod q`, the Montgomery form of 1 (R33; C1). -/
def Config.rOne : U256 :=
  ⟨0x00000001fffffffe, 0x5884b7fa00034802, 0x998c4fefecbc4ff5, 0x1824b159acc5056f⟩

/-- `R2 = 2^512 mod q` (R33). -/
def Config.r2 : U256 :=
  ⟨0xc999e990f3f29c6d, 0x2b6cedcb87925c23, 0x05d314967254398f, 0x0748d9d99f59ff11⟩

/-- `INV = -q^-1 mod 2^64` (R33). -/
def Config.inv : Word := 0xfffffffeffffffff

/-- The 2-adicity `S`: `q - 1 = t * 2^S`, `t` odd (R33). -/
abbrev Config.twoAdicity : Nat := 32

/-- `ROOT_OF_UNITY` in Montgomery form: the value R33 gives (the spec's decision D20, notes/assumptions/7.md). -/
def Config.rootOfUnity : U256 :=
  ⟨0xb9b58d8c5f0e466a, 0x5b1b4c801819d7ec, 0x0af53ae352a31e64, 0x5bf3adda19e9b27b⟩

/-- `E_QM2 = q - 2` (R35). -/
def Config.expQm2 : U256 :=
  ⟨0xfffffffeffffffff, 0x53bda402fffe5bfe, 0x3339d80809a1d805, 0x73eda753299d7d48⟩

/-- `E_LEG = (q - 1) / 2` (R35). -/
def Config.expLeg : U256 :=
  ⟨0x7fffffff80000000, 0xa9ded2017fff2dff, 0x199cec0404d0ec02, 0x39f6d3a994cebea4⟩

/-- `E_T = t`, the odd part of `q - 1` (R35). -/
def Config.expT : U256 :=
  ⟨0xfffe5bfeffffffff, 0x09a1d80553bda402, 0x299d7d483339d808, 0x0000000073eda753⟩

/-- `E_TP1H = (t + 1) / 2` (R35). -/
def Config.expTp1h : U256 :=
  ⟨0x7fff2dff80000000, 0x04d0ec02a9ded201, 0x94cebea4199cec04, 0x0000000039f6d3a9⟩

/-- `BASE`, the base address of the host register window: an OPEN parameter that the platform chooses (R50, decision
D4). It has no body, so that no claim can depend on its value (notes/assumptions/1.md). -/
opaque Config.base : Nat

/-- An operand of one step of an inversion chain (R191): the operand `a` itself, the constant `R`, or the
intermediate defined `back` steps before (0 is the newest). -/
inductive ChainSrc where
  | input
  | one
  | tmp (back : Nat)
  deriving DecidableEq, Repr

/-- One step of an inversion chain: it defines the next named intermediate by one `mont_sqr` or one `mont_mul` of
earlier ones (R191). No step can branch or select on a value. -/
inductive ChainStep where
  | sqr (a : ChainSrc)
  | mul (a b : ChainSrc)
  deriving DecidableEq, Repr

/-- The forms `INV_SCHEDULE` may take (R191): the plain constant-time exponentiation the spec allows as a substitute,
or a straight-line chain of squarings and multiplications. -/
inductive InvSchedule where
  | powCt
  | chain (steps : List ChainStep)
  deriving DecidableEq, Repr

/-- `INV_SCHEDULE`: the spec's default `pow_ct(·, E_QM2)` (R191: "A model with no better information takes
`INV_SCHEDULE = pow_ct(·, E_QM2)`"). Only the operation trace of `INV` depends on it (notes/assumptions/6.md). -/
def Config.invSchedule : InvSchedule := .powCt

end Sys2Proof
end

