-- ==== Sys2Proof/Syntax.lean ====
section
/-! DEFINITION. The commands of the block as data: one constructor per row of the opcode map (spec/30_encoding.md R73).
An unused register field has no place in a constructor (R74), and a register number is a `Fin 16` (R71). -/

namespace Sys2Proof

/-- The sixteen commands (R73), operands in the order `rd`, `ra`, `rb` (R77), unused ones left out. -/
inductive Instr where
  /-- `ZERO Fd` (R120). -/
  | zero (rd : FReg)
  /-- `ONE Fd` (R121). -/
  | one (rd : FReg)
  /-- `FROMU64 Fd` (R122). -/
  | fromu64 (rd : FReg)
  /-- `DEC Fd` (R124). -/
  | dec (rd : FReg)
  /-- `ENC Fa` (R126). -/
  | enc (ra : FReg)
  /-- `NEG Fd, Fa` (R147). -/
  | neg (rd ra : FReg)
  /-- `ADD Fd, Fa, Fb` (R148). -/
  | add (rd ra rb : FReg)
  /-- `SUB Fd, Fa, Fb` (R149). -/
  | sub (rd ra rb : FReg)
  /-- `MUL Fd, Fa, Fb` (R150). -/
  | mul (rd ra rb : FReg)
  /-- `SQR Fd, Fa` (R151). -/
  | sqr (rd ra : FReg)
  /-- `POWC Fd, Fa` (R173). -/
  | powc (rd ra : FReg)
  /-- `POWV Fd, Fa` (R174). -/
  | powv (rd ra : FReg)
  /-- `INV Fd, Fa` (R190). -/
  | inv (rd ra : FReg)
  /-- `SQRT Fd, Fa` (R201). -/
  | sqrt (rd ra : FReg)
  /-- `EQ Fa, Fb` (R220). -/
  | eq (ra rb : FReg)
  /-- `SEL Fd, Fa, Fb` (R221). -/
  | sel (rd ra rb : FReg)
  deriving DecidableEq, Repr

end Sys2Proof
end

