-- ==== Sys2Proof/Machine/State.lean ====
section
/-! DEFINITION. The state of the block (spec/10_state.md R38) with the host's side of the register window, as plain
data; the reasons a step can stop; the state right after reset (spec/10_state.md R37). -/

namespace Sys2Proof.Machine

/-- What one host access asks for (spec/20_memory.md R52): a read, or a write of a 64-bit value. -/
inductive AccessKind where
  | read
  | write (v : Word)
  deriving DecidableEq, Repr

/-- One host access to the register window. `offset` is `addr - BASE` (R51; negative below the window) and `width` is
its size in bytes. `BASE` itself is an OPEN parameter, so an access is keyed by its offset (notes/assumptions/1.md). -/
structure Access where
  kind : AccessKind
  offset : Int
  width : Nat
  deriving DecidableEq, Repr

/-- What the outside world can do to the block: one host access (R20), or a reset asserted by the platform, which
takes effect between commands (spec/70_reset_and_hazards.md R270). -/
inductive HostEvent where
  | access (a : Access)
  | reset
  deriving DecidableEq, Repr

/-- The six registers of the window (R50). -/
inductive WinReg where
  | data (i : Fin 4)
  | cmd
  | status
  deriving DecidableEq, Repr

/-- The state. The first six fields are the complete architectural state of R38. The last two are the MODEL's own: the
host's side of the window, not state of the block (notes/assumptions/2.md, 3.md). -/
structure State where
  /-- The element registers `F0..F15`, raw Montgomery representatives (R21). -/
  f : Vector U256 16
  /-- The data buffer `DATA0..DATA3` (R25). -/
  data : Vector Word 4
  /-- `STATUS.EQ` (R26, R27). -/
  eqFlag : Bool
  /-- `STATUS.NONE` (R26, R28). -/
  noneFlag : Bool
  /-- `STATUS.ILL` (R26, R29). -/
  ill : Bool
  /-- `STATUS.CAUSE` (R26, R29). -/
  cause : BitVec 4
  /-- The model's own: the host events not yet accepted, in the order they reach the window. -/
  inbox : List HostEvent
  /-- The model's own: the values the window has returned to host reads, newest first. -/
  replies : List Word
  deriving DecidableEq, Repr

/-- The reasons the machine stops with a fault. -/
inductive Fault where
  /-- Raised by `SQRT` when a loop of the Tonelli-Shanks engine has not ended after `S` rounds: the spec's `stuck`
  (spec/93_implementation_defined.md I14), which it says cannot arise with a primitive `ROOT_OF_UNITY`
  (spec/45_sqrt.md R202). Safe: the machine stops where a hardware with another root might go on. -/
  | sqrtDiverges
  deriving DecidableEq, Repr

/-- The reasons a step is refused. -/
inductive Refusal where
  /-- Raised by `exec` for a command that has no meaning yet. Safe: nothing is claimed of it. -/
  | notModelled (mnemonic : String)
  /-- Raised by the window for an access that is not 8 bytes wide (spec/20_memory.md R51: "A model gives such an access
  no step and refuses it"). Safe: nothing can be proved of a host program that makes one. -/
  | accessWidth
  /-- Raised by the window for an 8-byte access that is not naturally aligned (R51). Safe, for the same reason. -/
  | accessMisaligned
  /-- Raised by the window for an aligned 8-byte access at an offset outside `0x00..0x28` (R51). Safe, likewise. -/
  | accessOutsideWindow
  deriving DecidableEq, Repr

/-- The outcome of a step of this machine. -/
abbrev Outcome := Host.Outcome State Fault Refusal

/-- The state right after reset (R37): every element register 0, every data word 0, `STATUS = 0`. No host event has
arrived and no reply has been given. -/
def State.reset : State where
  f := Vector.replicate 16 U256.zero
  data := Vector.replicate 4 0
  eqFlag := false
  noneFlag := false
  ill := false
  cause := 0
  inbox := []
  replies := []

end Sys2Proof.Machine
end

