-- ==== Sys2Proof/Machine/Flags.lean ====
section
/-! DEFINITION. The fields of `STATUS`: who writes each (spec/10_state.md R26 to R29) and the packed register a host reads
(spec/20_memory.md R52, R56). `ILL` and `CAUSE` are written by `raiseIllegal` of Machine/Ops.lean only (R29). -/

namespace Sys2Proof.Machine

/-- `STATUS.EQ <- b`, which only the `EQ` command does (R27). -/
def setEq (s : State) (b : Bool) : State := { s with eqFlag := b }

/-- `STATUS.NONE <- b`, which only `DEC` and `SQRT` do (R28). -/
def setNone (s : State) (b : Bool) : State := { s with noneFlag := b }

/-- `pack_status() = zext_64({CAUSE[3:0], 0b0, ILL, NONE, EQ})` (R52). -/
def packStatus (s : State) : Word :=
  (s.cause ++ (0#1) ++ BitVec.ofBool s.ill ++ BitVec.ofBool s.noneFlag ++ BitVec.ofBool s.eqFlag).setWidth 64

end Sys2Proof.Machine
end

