-- ==== Sys2Proof/Machine/Limb.lean ====
section
/-! DEFINITION. The limb primitives and the carry propagator (spec/40_limb_carry.md R100 to R107): pure functions of
their arguments that touch no architectural state (spec/00_scope.md R13). -/

namespace Sys2Proof.Machine

/-- `adc`, add with carry over a 128-bit intermediate: the low word and the carry out (R100). -/
def adc (a b c : Word) : Word × Word :=
  let s : BitVec 128 := a.setWidth 128 + b.setWidth 128 + c.setWidth 128
  (s.extractLsb' 0 64, s.extractLsb' 64 64)

/-- `sbb`, subtract with borrow: the low word and the borrow out as a mask; of the borrow in only bit 63 is read
(R101). -/
def sbb (a b bm : Word) : Word × Word :=
  let d : Int := (a.toNat : Int) - (b.toNat : Int) - ((bm.getLsbD 63).toNat : Int)
  if d < 0 then (BitVec.ofNat 64 (d + 2 ^ 64).toNat, limbMax) else (BitVec.ofNat 64 d.toNat, 0)

/-- `mac`, multiply-accumulate with carry: the low and the high word of `a + b*c + carry` (R102). -/
def mac (a b c carry : Word) : Word × Word :=
  let s : BitVec 128 := a.setWidth 128 + b.setWidth 128 * c.setWidth 128 + carry.setWidth 128
  (s.extractLsb' 0 64, s.extractLsb' 64 64)

/-- `mask(b) = (0 - b) mod 2^64`: all-zeros for 0, all-ones for 1 (R103). -/
def mask (b : Bool) : Word := 0 - (BitVec.ofBool b).setWidth 64

/-- A masked 256-bit value: `x.l[i] & m` in every limb (R103). -/
def maskLimbs (x : U256) (m : Word) : U256 := ⟨x.l0 &&& m, x.l1 &&& m, x.l2 &&& m, x.l3 &&& m⟩

/-- `add4`, the ripple-carry adder: the sum modulo `2^256` and the carry out (R104). -/
def add4 (a b : U256) : U256 × Word :=
  let (d0, c) := adc a.l0 b.l0 0
  let (d1, c) := adc a.l1 b.l1 c
  let (d2, c) := adc a.l2 b.l2 c
  let (d3, c) := adc a.l3 b.l3 c
  (⟨d0, d1, d2, d3⟩, c)

/-- `sub4`, the ripple-borrow subtractor: the difference modulo `2^256` and the final borrow mask (R105). -/
def sub4 (a b : U256) : U256 × Word :=
  let (d0, bm) := sbb a.l0 b.l0 0
  let (d1, bm) := sbb a.l1 b.l1 bm
  let (d2, bm) := sbb a.l2 b.l2 bm
  let (d3, bm) := sbb a.l3 b.l3 bm
  (⟨d0, d1, d2, d3⟩, bm)

/-- One row of the schoolbook product (the inner loop of R106): four accumulator limbs plus `x * b`, with the carry
out as the last component. -/
def mulRow (r0 r1 r2 r3 x : Word) (b : U256) : Word × Word × Word × Word × Word :=
  let (r0, carry) := mac r0 x b.l0 0
  let (r1, carry) := mac r1 x b.l1 carry
  let (r2, carry) := mac r2 x b.l2 carry
  let (r3, carry) := mac r3 x b.l3 carry
  (r0, r1, r2, r3, carry)

/-- `mul4x4`, the full 4x4 schoolbook product, row by row (R106). -/
def mul4x4 (a b : U256) : U512 :=
  let (r0, r1, r2, r3, r4) := mulRow 0 0 0 0 a.l0 b
  let (r1, r2, r3, r4, r5) := mulRow r1 r2 r3 r4 a.l1 b
  let (r2, r3, r4, r5, r6) := mulRow r2 r3 r4 r5 a.l2 b
  let (r3, r4, r5, r6, r7) := mulRow r3 r4 r5 r6 a.l3 b
  ⟨r0, r1, r2, r3, r4, r5, r6, r7⟩

/-- One limb of the left shift across the limb array: `(hi, lo)` gives `(hi[62:0], lo[63])` (R107). -/
def shiftIn (hi lo : Word) : Word := (hi.extractLsb' 0 63 ++ lo.extractLsb' 63 1).setWidth 64

/-- `sqr4`, the squaring product: the cross products once, doubled by one left shift, then the diagonal terms (R107). -/
def sqr4 (a : U256) : U512 :=
  let (r1, c) := mac 0 a.l0 a.l1 0
  let (r2, c) := mac 0 a.l0 a.l2 c
  let (r3, r4) := mac 0 a.l0 a.l3 c
  let (r3, c) := mac r3 a.l1 a.l2 0
  let (r4, r5) := mac r4 a.l1 a.l3 c
  let (r5, r6) := mac r5 a.l2 a.l3 0
  let r7 := shiftIn 0 r6
  let r6 := shiftIn r6 r5
  let r5 := shiftIn r5 r4
  let r4 := shiftIn r4 r3
  let r3 := shiftIn r3 r2
  let r2 := shiftIn r2 r1
  let r1 := shiftIn r1 0
  let (r0, c) := mac 0 a.l0 a.l0 0
  let (r1, c) := adc 0 r1 c
  let (r2, c) := mac r2 a.l1 a.l1 c
  let (r3, c) := adc 0 r3 c
  let (r4, c) := mac r4 a.l2 a.l2 c
  let (r5, c) := adc 0 r5 c
  let (r6, c) := mac r6 a.l3 a.l3 c
  let (r7, _) := adc 0 r7 c
  ⟨r0, r1, r2, r3, r4, r5, r6, r7⟩

end Sys2Proof.Machine
end

