-- ==== Sys2Proof/Machine/Mont.lean ====
section
/-! DEFINITION. The modular adder, subtractor and negation, the Montgomery reduction, multiplier and squarer
(spec/42_ring_ops.md R140 to R146), the constant-time mux and comparison (spec/46_ct_primitives.md R222, R223), the
canonicality test and the way out of Montgomery form (spec/41_representation.md R123, R125). Pure functions. -/

namespace Sys2Proof.Machine

/-- `sub_mod`, the modular subtractor: subtract, then add the modulus back under the borrow mask (R144). -/
def subMod (a b : U256) : U256 :=
  let (d, bm) := sub4 a b
  let (d, _) := add4 d (maskLimbs Config.modulus bm)
  d

/-- `add_mod`, the modular adder: add, subtract the modulus, conditionally add it back (R145). -/
def addMod (a b : U256) : U256 :=
  let (s, _) := add4 a b
  subMod s Config.modulus

/-- `neg_mod`, modular negation: `q - a`, masked to 0 for `a = 0` (R146). -/
def negMod (a : U256) : U256 :=
  let (d, _) := sub4 Config.modulus a
  let nz : Bool := (a.l0 ||| a.l1 ||| a.l2 ||| a.l3) != 0
  maskLimbs d (mask nz)

/-- One round `i` of the reduction loop (R140): the limbs `r_i .. r_{i+4}` and `carry2` go in; `k * q` is added at
limb `i`; the new limbs `r_{i+1} .. r_{i+4}` and `carry2` come out (the new `r_i` is zero and discarded). -/
def redcRound (r0 r1 r2 r3 r4 carry2 : Word) : Word × Word × Word × Word × Word :=
  let k := r0 * Config.inv
  let (_, carry) := mac r0 k Config.modulus.l0 0
  let (r1, carry) := mac r1 k Config.modulus.l1 carry
  let (r2, carry) := mac r2 k Config.modulus.l2 carry
  let (r3, carry) := mac r3 k Config.modulus.l3 carry
  let (r4, carry2) := adc r4 carry2 carry
  (r1, r2, r3, r4, carry2)

/-- `redc`, Montgomery reduction: four rounds, the low four limbs and `carry2` dropped, one conditional subtraction of
the modulus (R140). -/
def redc (r : U512) : U256 :=
  let (r1, r2, r3, r4, carry2) := redcRound r.r0 r.r1 r.r2 r.r3 r.r4 0
  let (r2, r3, r4, r5, carry2) := redcRound r1 r2 r3 r4 r.r5 carry2
  let (r3, r4, r5, r6, carry2) := redcRound r2 r3 r4 r5 r.r6 carry2
  let (r4, r5, r6, r7, _) := redcRound r3 r4 r5 r6 r.r7 carry2
  subMod ⟨r4, r5, r6, r7⟩ Config.modulus

/-- `mont_mul(a, b) = redc(mul4x4(a, b))` (R142). -/
def montMul (a b : U256) : U256 := redc (mul4x4 a b)

/-- `mont_sqr(a) = redc(sqr4(a))` (R143). -/
def montSqr (a : U256) : U256 := redc (sqr4 a)

/-- `from_mont(v)`: a reduction pass with the high four limbs zero (R125). -/
def fromMont (v : U256) : U256 := redc ⟨v.l0, v.l1, v.l2, v.l3, 0, 0, 0, 0⟩

/-- `ct_eq(a, b)`: all four limbs compared, combined with bitwise AND (R222). -/
def ctEq (a b : U256) : Bool :=
  let e := true
  let e := e && ((a.l0 ^^^ b.l0) == 0)
  let e := e && ((a.l1 ^^^ b.l1) == 0)
  let e := e && ((a.l2 ^^^ b.l2) == 0)
  e && ((a.l3 ^^^ b.l3) == 0)

/-- One limb of the blend `(x & ~m) | (y & m)` (R103, R223). -/
def blend (x y m : Word) : Word := (x &&& ~~~m) ||| (y &&& m)

/-- `ct_select(a, b, c)`: a bitmask blend per limb, `a` for `c = 0` and `b` for `c = 1` (R223). -/
def ctSelect (a b : U256) (c : Bool) : U256 :=
  let m := mask c
  ⟨blend a.l0 b.l0 m, blend a.l1 b.l1 m, blend a.l2 b.l2 m, blend a.l3 b.l3 m⟩

/-- The comparison loop of `lt_modulus` over the limbs of `x` and of the modulus, most significant first; it stops at
the first limb that differs (R123). -/
def ltLimbs : List (Word × Word) → Bool
  | [] => false
  | (x, m) :: rest => if x < m then true else if m < x then false else ltLimbs rest

/-- `lt_modulus(x)`, the canonicality test of decoding (R123). -/
def ltModulus (x : U256) : Bool :=
  ltLimbs [(x.l3, Config.modulus.l3), (x.l2, Config.modulus.l2), (x.l1, Config.modulus.l1), (x.l0, Config.modulus.l0)]

end Sys2Proof.Machine
end

