-- ==== Sys2Proof/Decode.lean ====
section
/-! DEFINITION. The command decoder, total on any 64-bit value written to `CMD` (spec/30_encoding.md R79); the encoder,
the opcode table as match/mask rows, the pseudo-instructions (R78) and the assembler text (R77), written from the same
tables. -/

namespace Sys2Proof

/-- The sixteen listed opcodes (R73). -/
inductive Opcode where
  | zero | one | fromu64 | dec | enc | neg | add | sub | mul | sqr | powc | powv | inv | sqrt | eq | sel
  deriving DecidableEq, Repr

/-- Every listed opcode, in the order of the map (R73). -/
def allOpcodes : List Opcode :=
  [.zero, .one, .fromu64, .dec, .enc, .neg, .add, .sub, .mul, .sqr, .powc, .powv, .inv, .sqrt, .eq, .sel]

/-- The `op` column of the opcode map (R73). -/
def opcodeNumber : Opcode → BitVec 8
  | .zero => 0x01 | .one => 0x02 | .fromu64 => 0x03 | .dec => 0x04 | .enc => 0x05
  | .neg => 0x08 | .add => 0x09 | .sub => 0x0A | .mul => 0x0B | .sqr => 0x0C
  | .powc => 0x10 | .powv => 0x11 | .inv => 0x12 | .sqrt => 0x13
  | .eq => 0x18 | .sel => 0x19

/-- The listed opcode with this number, if there is one (R73, R75). -/
def opcodeOf (op : BitVec 8) : Option Opcode := allOpcodes.find? (fun o => opcodeNumber o == op)

/-- The `rd` column of the map: the opcode uses its destination field (R73). -/
def usesRd : Opcode → Bool
  | .enc => false | .eq => false
  | .zero => true | .one => true | .fromu64 => true | .dec => true | .neg => true | .add => true | .sub => true
  | .mul => true | .sqr => true | .powc => true | .powv => true | .inv => true | .sqrt => true | .sel => true

/-- The `ra` column of the map (R73). -/
def usesRa : Opcode → Bool
  | .zero => false | .one => false | .fromu64 => false | .dec => false
  | .enc => true | .neg => true | .add => true | .sub => true | .mul => true | .sqr => true | .powc => true
  | .powv => true | .inv => true | .sqrt => true | .eq => true | .sel => true

/-- The `rb` column of the map (R73). -/
def usesRb : Opcode → Bool
  | .add => true | .sub => true | .mul => true | .eq => true | .sel => true
  | .zero => false | .one => false | .fromu64 => false | .dec => false | .enc => false | .neg => false
  | .sqr => false | .powc => false | .powv => false | .inv => false | .sqrt => false

/-- The cause of an illegal command, by its name in the cause table (spec/60_exceptions.md R242). -/
inductive Cause where
  | cmdHigh | badOpcode | rsvBits | unusedField
  deriving DecidableEq, Repr

/-- The code of a cause, as `STATUS.CAUSE` holds it (R242). -/
def causeCode : Cause → BitVec 4
  | .cmdHigh => 1 | .badOpcode => 2 | .rsvBits => 3 | .unusedField => 4

/-- What decoding a value written to `CMD` gives: a legal command, or `Illegal(cause)` (R79). -/
inductive Decoded where
  | cmd (i : Instr)
  | illegal (c : Cause)
  deriving DecidableEq, Repr

/-- The upper half `v[63:32]` of a value written to `CMD`, which must be zero (R70). -/
def cmdHigh (v : Word) : BitVec 32 := v.extractLsb' 32 32

/-- `op = w[7:0]` (R71). -/
def fieldOp (v : Word) : BitVec 8 := v.extractLsb' 0 8

/-- `rd = w[11:8]` (R71). -/
def fieldRd (v : Word) : BitVec 4 := v.extractLsb' 8 4

/-- `ra = w[15:12]` (R71). -/
def fieldRa (v : Word) : BitVec 4 := v.extractLsb' 12 4

/-- `rb = w[19:16]` (R71). -/
def fieldRb (v : Word) : BitVec 4 := v.extractLsb' 16 4

/-- `rsv = w[31:20]` (R71). -/
def fieldRsv (v : Word) : BitVec 12 := v.extractLsb' 20 12

/-- The command with this opcode and these register fields; a field the opcode does not use is dropped (R73). -/
def buildInstr (o : Opcode) (rd ra rb : FReg) : Instr :=
  match o with
  | .zero => .zero rd
  | .one => .one rd
  | .fromu64 => .fromu64 rd
  | .dec => .dec rd
  | .enc => .enc ra
  | .neg => .neg rd ra
  | .add => .add rd ra rb
  | .sub => .sub rd ra rb
  | .mul => .mul rd ra rb
  | .sqr => .sqr rd ra
  | .powc => .powc rd ra
  | .powv => .powv rd ra
  | .inv => .inv rd ra
  | .sqrt => .sqrt rd ra
  | .eq => .eq ra rb
  | .sel => .sel rd ra rb

/-- A register field that the opcode does not use is nonzero (R74). -/
def unusedFieldSet (o : Opcode) (v : Word) : Bool :=
  (!usesRd o && fieldRd v != 0) || (!usesRa o && fieldRa v != 0) || (!usesRb o && fieldRb v != 0)

/-- The decoder: the four illegal conditions tested in the order 1, 2, 3, 4 (R79, R243). -/
def decode (v : Word) : Decoded :=
  if cmdHigh v ≠ 0 then .illegal .cmdHigh
  else
    match opcodeOf (fieldOp v) with
    | none => .illegal .badOpcode
    | some o =>
      if fieldRsv v ≠ 0 then .illegal .rsvBits
      else if unusedFieldSet o v then .illegal .unusedField
      else .cmd (buildInstr o (fieldRd v).toFin (fieldRa v).toFin (fieldRb v).toFin)

/-- The opcode of a command (R73). -/
def opcodeOfInstr : Instr → Opcode
  | .zero _ => .zero
  | .one _ => .one
  | .fromu64 _ => .fromu64
  | .dec _ => .dec
  | .enc _ => .enc
  | .neg _ _ => .neg
  | .add _ _ _ => .add
  | .sub _ _ _ => .sub
  | .mul _ _ _ => .mul
  | .sqr _ _ => .sqr
  | .powc _ _ => .powc
  | .powv _ _ => .powv
  | .inv _ _ => .inv
  | .sqrt _ _ => .sqrt
  | .eq _ _ => .eq
  | .sel _ _ _ => .sel

/-- The value of the `rd` field of a command, 0 where the opcode does not use it (R73, R74). -/
def rdField : Instr → FReg
  | .zero rd => rd
  | .one rd => rd
  | .fromu64 rd => rd
  | .dec rd => rd
  | .enc _ => 0
  | .neg rd _ => rd
  | .add rd _ _ => rd
  | .sub rd _ _ => rd
  | .mul rd _ _ => rd
  | .sqr rd _ => rd
  | .powc rd _ => rd
  | .powv rd _ => rd
  | .inv rd _ => rd
  | .sqrt rd _ => rd
  | .eq _ _ => 0
  | .sel rd _ _ => rd

/-- The value of the `ra` field of a command, 0 where the opcode does not use it (R73, R74). -/
def raField : Instr → FReg
  | .zero _ => 0
  | .one _ => 0
  | .fromu64 _ => 0
  | .dec _ => 0
  | .enc ra => ra
  | .neg _ ra => ra
  | .add _ ra _ => ra
  | .sub _ ra _ => ra
  | .mul _ ra _ => ra
  | .sqr _ ra => ra
  | .powc _ ra => ra
  | .powv _ ra => ra
  | .inv _ ra => ra
  | .sqrt _ ra => ra
  | .eq ra _ => ra
  | .sel _ ra _ => ra

/-- The value of the `rb` field of a command, 0 where the opcode does not use it (R73, R74). -/
def rbField : Instr → FReg
  | .zero _ => 0
  | .one _ => 0
  | .fromu64 _ => 0
  | .dec _ => 0
  | .enc _ => 0
  | .neg _ _ => 0
  | .add _ _ rb => rb
  | .sub _ _ rb => rb
  | .mul _ _ rb => rb
  | .sqr _ _ => 0
  | .powc _ _ => 0
  | .powv _ _ => 0
  | .inv _ _ => 0
  | .sqrt _ _ => 0
  | .eq _ rb => rb
  | .sel _ _ rb => rb

/-- The 32-bit word with these fields and `rsv = 0` (R70). -/
def packFields (op : BitVec 8) (rd ra rb : FReg) : BitVec 32 :=
  (0 : BitVec 12) ++ BitVec.ofFin (w := 4) rb ++ BitVec.ofFin (w := 4) ra ++ BitVec.ofFin (w := 4) rd ++ op

/-- The 32-bit command word of a command (R70, R73). -/
def encodeWord (i : Instr) : BitVec 32 :=
  packFields (opcodeNumber (opcodeOfInstr i)) (rdField i) (raField i) (rbField i)

/-- The 64-bit value a host writes to `CMD` for a command: its word in the low half, zero above (R70). -/
def encode (i : Instr) : Word := (encodeWord i).setWidth 64

/-- The instruction the decoder reads from a command word whose bits are `w`. A command is not fetched from memory: it
is the value of one 64-bit write to `CMD`, so the bits above `nbits` are zero in that value (R70, R79). -/
def decodeTableWord (nbits w : Nat) : Option Instr :=
  match decode (BitVec.ofNat 64 (w % 2 ^ nbits)) with
  | .cmd i => some i
  | .illegal _ => none

/-- One row of the opcode table: its opcode with the `match`/`mask` pair of its word (R79). -/
structure TableRow where
  opcode : Opcode
  matchBits : BitVec 32
  maskBits : BitVec 32
  deriving DecidableEq, Repr

/-- The opcode table as match/mask pairs (R74, R79; spec/opcode_table.json). -/
def opcodeTable : List TableRow :=
  [⟨.zero, 0x00000001, 0xFFFFF0FF⟩, ⟨.one, 0x00000002, 0xFFFFF0FF⟩, ⟨.fromu64, 0x00000003, 0xFFFFF0FF⟩,
    ⟨.dec, 0x00000004, 0xFFFFF0FF⟩, ⟨.enc, 0x00000005, 0xFFFF0FFF⟩, ⟨.neg, 0x00000008, 0xFFFF00FF⟩,
    ⟨.add, 0x00000009, 0xFFF000FF⟩, ⟨.sub, 0x0000000A, 0xFFF000FF⟩] ++
  [⟨.mul, 0x0000000B, 0xFFF000FF⟩, ⟨.sqr, 0x0000000C, 0xFFFF00FF⟩, ⟨.powc, 0x00000010, 0xFFFF00FF⟩,
    ⟨.powv, 0x00000011, 0xFFFF00FF⟩, ⟨.inv, 0x00000012, 0xFFFF00FF⟩, ⟨.sqrt, 0x00000013, 0xFFFF00FF⟩,
    ⟨.eq, 0x00000018, 0xFFF00FFF⟩, ⟨.sel, 0x00000019, 0xFFF000FF⟩]

/-- A command word has the fixed bits of a row (R79). -/
def TableRow.matchesWord (r : TableRow) (w : BitVec 32) : Bool := (w &&& r.maskBits) == r.matchBits

/-- The pseudo-instructions of the assembler (R78). The block never sees one. -/
inductive Pseudo where
  | dbl (rd ra : FReg)
  | mov (rd ra : FReg)
  | clr (rd : FReg)
  deriving DecidableEq, Repr

/-- The expansion of a pseudo-instruction (R78). -/
def expandPseudo : Pseudo → Instr
  | .dbl rd ra => .add rd ra ra
  | .mov rd ra => .sel rd ra ra
  | .clr rd => .zero rd

/-- The mnemonic of an opcode (R73). -/
def mnemonic : Opcode → String
  | .zero => "ZERO" | .one => "ONE" | .fromu64 => "FROMU64" | .dec => "DEC" | .enc => "ENC"
  | .neg => "NEG" | .add => "ADD" | .sub => "SUB" | .mul => "MUL" | .sqr => "SQR"
  | .powc => "POWC" | .powv => "POWV" | .inv => "INV" | .sqrt => "SQRT"
  | .eq => "EQ" | .sel => "SEL"

/-- The written form of a register, `F0`..`F15` (R77). -/
def regText (r : FReg) : String := "F" ++ toString r.val

/-- The operands of a command in the order `Fd, Fa, Fb`, unused ones left out (R77). -/
def operandList (i : Instr) : List FReg :=
  let o := opcodeOfInstr i
  (if usesRd o then [rdField i] else []) ++ (if usesRa o then [raField i] else []) ++
    (if usesRb o then [rbField i] else [])

/-- The assembler text of a command (R77). -/
def asmText (i : Instr) : String :=
  mnemonic (opcodeOfInstr i) ++ " " ++ String.intercalate ", " ((operandList i).map regText)

end Sys2Proof
end

