-- ==== Sys2Proof/Machine/Ops.lean ====
section
/-! DEFINITION. The named operations over the registers of the block: the element register file (spec/10_state.md R21 to
R24), the data buffer (R25), the host's side of the window, the record of an illegal command (spec/60_exceptions.md
R241, the block's only exception primitive) and the reset (spec/70_reset_and_hazards.md R270). -/

namespace Sys2Proof.Machine

/-- `F[i]` (R21, R24: no register is hardwired). -/
def readF (s : State) (i : FReg) : U256 := s.f[i]

/-- `F[i] <- v` (R21, R24). -/
def writeF (s : State) (i : FReg) (v : U256) : State := { s with f := s.f.set i v }

/-- `DATA[i]` (R25). -/
def readData (s : State) (i : Fin 4) : Word := s.data[i]

/-- `DATA[i] <- v` (R25, spec/20_memory.md R53). -/
def writeData (s : State) (i : Fin 4) (v : Word) : State := { s with data := s.data.set i v }

/-- All four data words replaced by the limbs of a value: `for i = 0 to 3: DATA[i] <- c.l[i]`
(spec/41_representation.md R126). -/
def writeDataAll (s : State) (v : U256) : State := { s with data := #v[v.l0, v.l1, v.l2, v.l3] }

/-- The host events still to be accepted (the model's own field, notes/assumptions/2.md). -/
def setInbox (s : State) (es : List HostEvent) : State := { s with inbox := es }

/-- A host read returns `v` (the model's own field, notes/assumptions/3.md). -/
def reply (s : State) (v : Word) : State := { s with replies := v :: s.replies }

/-- `raise IllegalCommand(cause)`: `STATUS.ILL <- 1`, `STATUS.CAUSE <- cause` and nothing else (spec/60_exceptions.md
R241). No state is saved, no mode changes and control does not transfer (R244), so nothing returns from it. -/
def raiseIllegal (c : Cause) (s : State) : State := { s with ill := true, cause := causeCode c }

/-- Reset: every piece of architectural state takes its reset value (R270, spec/10_state.md R37). The host's side of the
window is not state of the block and stays (notes/assumptions/5.md). -/
def resetBlock (s : State) : State := { State.reset with inbox := s.inbox, replies := s.replies }

/-- The block between commands, when the host makes no access: "no state changes without a host access"
(spec/60_exceptions.md R252). -/
def idle (s : State) : State := s

end Sys2Proof.Machine
end

