-- ==== Sys2Proof/Machine/Operands.lean ====
section
/-! DEFINITION. The implicit operands of the commands (spec/30_encoding.md R72), the views of the data buffer
(spec/10_state.md R25) and the byte order of values (spec/20_memory.md R57). Register operands are read with `readF`. -/

namespace Sys2Proof.Machine

/-- `DATAV`, the 256-bit view of the data buffer (R25). -/
def dataV (s : State) : U256 := ⟨readData s 0, readData s 1, readData s 2, readData s 3⟩

/-- The integer operand of `FROMU64`: `n = DATA[0]`, zero-extended (R72; spec/41_representation.md R122). -/
def smallOperand (s : State) : U256 := ⟨readData s 0, 0, 0, 0⟩

/-- The exponent operand of `POWC` and `POWV`: `e = DATAV` (R72). -/
def exponentOperand (s : State) : U256 := dataV s

/-- Byte `k` of a 64-bit register on a byte-addressed bus: bits `[8k+7:8k]` (R57). -/
def byteLane (v : Word) (k : Nat) : BitVec 8 := v.extractLsb' (8 * k) 8

/-- `DATAB[j]`, byte `j` of the data buffer, for `j = 0..31` (R25, R57). -/
def dataByte (s : State) (j : Fin 32) : BitVec 8 :=
  byteLane (readData s ⟨j.val / 8, by omega⟩) (j.val % 8)

/-- The 64-bit word a little-endian load makes of eight bytes, byte 0 lowest (R57). -/
def wordOfBytes (b0 b1 b2 b3 b4 b5 b6 b7 : BitVec 8) : Word := b7 ++ b6 ++ b5 ++ b4 ++ b3 ++ b2 ++ b1 ++ b0

end Sys2Proof.Machine
end

