-- ==== Sys2Proof/Machine/ConstTime.lean ====
section
/-! DEFINITION. The meanings of the constant-time primitives `EQ` and `SEL` (spec/46_ct_primitives.md R220, R221). -/

namespace Sys2Proof.Machine

/-- `EQ Fa, Fb`: `STATUS.EQ <- ct_eq(F[ra], F[rb])` (R220). -/
def execEq (ra rb : FReg) (s : State) : Outcome := .next (setEq s (ctEq (readF s ra) (readF s rb)))

/-- `SEL Fd, Fa, Fb`: `F[rd] <- ct_select(F[ra], F[rb], STATUS.EQ)` (R221). -/
def execSel (rd ra rb : FReg) (s : State) : Outcome :=
  .next (writeF s rd (ctSelect (readF s ra) (readF s rb) s.eqFlag))

end Sys2Proof.Machine
end

