-- ==== Sys2Proof/Machine/Engines.lean ====
section
/-! DEFINITION. The three engines over the Montgomery datapath: square-and-multiply in its two timing variants
(spec/43_exponentiation.md R170, R171), the inversion chain (spec/44_inversion.md R191) and the Tonelli-Shanks square
root (spec/45_sqrt.md R200). Pure functions of their arguments (spec/00_scope.md R13). -/

namespace Sys2Proof.Machine

/-- Go on with the value of `n`: `forceNat n k = k n` (`forceNat_eq` of Laws/Engines.lean), written so that an evaluation
knows `n` as a numeral first. -/
def forceNat {α : Type} (n : Nat) (k : Nat → α) : α :=
  match n with
  | 0 => k 0
  | m + 1 => k (m + 1)

/-- An engine holds the value `v` between two operations, "the exponentiation accumulator" or another intermediate of
spec/10_state.md R36, and goes on with it: `latch v k = k v` (`latch_eq` of Laws/Engines.lean). Nothing of it is
architectural. -/
def latch {α : Type} (v : U256) (k : U256 → α) : α := forceNat v.toNat (fun n => k (U256.ofNat n))

/-- The loop of `pow_ct` over the bits `n-1 downto 0` of the exponent (R170): square, multiply, select. -/
def powCtLoop (b e : U256) : Nat → U256 → U256
  | 0, acc => acc
  | n + 1, acc =>
    latch (montSqr acc) fun acc =>
      latch (montMul acc b) fun tmp =>
        powCtLoop b e n (ctSelect acc tmp (e.bit n))

/-- `pow_ct(b, e)`, constant-time square-and-multiply from the accumulator `R` (R170). -/
def powCt (b e : U256) : U256 := powCtLoop b e 256 Config.rOne

/-- The loop of `pow_vt` over the bits `n-1 downto 0` of the exponent (R171): the multiplication is skipped when the bit
is 0. -/
def powVtLoop (b e : U256) : Nat → U256 → U256
  | 0, acc => acc
  | n + 1, acc =>
    latch (montSqr acc) fun acc =>
      if e.bit n then latch (montMul acc b) fun acc => powVtLoop b e n acc
      else powVtLoop b e n acc

/-- `pow_vt(b, e)`, variable-time square-and-multiply from the accumulator `R` (R171). -/
def powVt (b e : U256) : U256 := powVtLoop b e 256 Config.rOne

/-- The value of an operand of a chain step: the input, `R`, or an earlier intermediate (R191); the list holds the
intermediates, newest first. -/
def chainSrc (a : U256) (tmps : List U256) : ChainSrc → U256
  | .input => a
  | .one => Config.rOne
  | .tmp back => tmps.getD back U256.zero

/-- The intermediate one chain step defines (R191). -/
def chainStep (a : U256) (tmps : List U256) : ChainStep → U256
  | .sqr x => montSqr (chainSrc a tmps x)
  | .mul x y => montMul (chainSrc a tmps x) (chainSrc a tmps y)

/-- The intermediates of a whole chain, newest first (R191). -/
def chainRun (a : U256) : List U256 → List ChainStep → List U256
  | tmps, [] => tmps
  | tmps, s :: rest => latch (chainStep a tmps s) fun v => chainRun a (v :: tmps) rest

/-- The result of an inversion schedule on `a`: the last intermediate of a chain, or the spec's substitute
`pow_ct(a, E_QM2)` (R191). -/
def scheduleRun (sch : InvSchedule) (a : U256) : U256 :=
  match sch with
  | .powCt => powCt a Config.expQm2
  | .chain steps => (chainRun a [] steps).headD a

/-- `inv_chain(a)` with the schedule of Config (R190, R191). -/
def invChain (a : U256) : U256 := scheduleRun Config.invSchedule a

/-- The condition R191 puts on `INV_SCHEDULE`: its result is `pow_ct(a, E_QM2)` for every `a < q`. That the sequence of
operations is the same for every `a`, with no branch on `a`, holds by the type `InvSchedule`. -/
def scheduleConforms (sch : InvSchedule) : Prop :=
  ∀ a : U256, a.toNat < Config.q → scheduleRun sch a = powCt a Config.expQm2

/-- The steps of plain left-to-right square-and-multiply for the bits `n-1 downto 0` of `e`, as straight-line chain
steps; `src` is the operand that holds the accumulator. -/
def binaryChainFrom (e : Nat) : Nat → ChainSrc → List ChainStep
  | 0, _ => []
  | n + 1, src =>
    (if e.testBit n then [.sqr src, .mul (.tmp 0) .input] else [.sqr src]) ++ binaryChainFrom e n (.tmp 0)

/-- A straight-line chain for the exponent `q - 2`, from its second-highest bit down: a schedule of the second form R191
allows. The machine does not use it. -/
def binaryInvChain : InvSchedule := .chain (binaryChainFrom (Config.q - 2) 254 .input)

/-- `n` squarings in a row: `repeat n times: c <- mont_sqr(c)` (R200). -/
def squareTimes : Nat → U256 → U256
  | 0, c => c
  | n + 1, c => latch (montSqr c) fun c => squareTimes n c

/-- The inner search of R200, from the candidate `i` with `t2 = w^(2^i)`: the least `i` with `t2 = 1`, or `none` when
`fuel` candidates have failed (notes/assumptions/8.md). -/
def orderSearch : Nat → Nat → U256 → Option Nat
  | 0, _, _ => none
  | fuel + 1, i, t2 =>
    if ctEq t2 Config.rOne then some i
    else latch (montSqr t2) fun t2 => orderSearch fuel (i + 1) t2

/-- The variables of the refinement loop (R200; spec/10_state.md R36: "the square-root loop's `c`, `r`, `w`, `m`"). -/
structure SqrtVars where
  c : U256
  r : U256
  w : U256
  m : Nat
  deriving DecidableEq, Repr

/-- The updates of one round for the order `i` that the inner search found: `c <- c^(2^(m-i-1))`, `r <- r*c`,
`c <- c^2`, `w <- w*c`, `m <- i` (R200). -/
def sqrtUpdate (v : SqrtVars) (i : Nat) : SqrtVars :=
  latch (squareTimes (v.m - i - 1) v.c) fun c =>
    latch (montMul v.r c) fun r =>
      latch (montSqr c) fun c =>
        latch (montMul v.w c) fun w => ⟨c, r, w, i⟩

/-- One round of the refinement loop: the inner search, then the updates; `none` when the search did not end (R200). -/
def sqrtRound (v : SqrtVars) : Option SqrtVars :=
  (orderSearch Config.twoAdicity 1 (montSqr v.w)).map (sqrtUpdate v)

/-- The refinement loop of R200, `while w != 1`: the root, or `none` when it has not ended after `fuel` rounds or an
inner search has not ended (the spec's `stuck`, notes/assumptions/8.md). -/
def sqrtLoop : Nat → SqrtVars → Option U256
  | 0, v => if ctEq v.w Config.rOne then some v.r else none
  | fuel + 1, v =>
    if ctEq v.w Config.rOne then some v.r
    else (sqrtRound v).elim none (fun next => sqrtLoop fuel next)

/-- What the square-root engine ends with: a root, "no value", or a loop that did not end. -/
inductive SqrtResult where
  | root (v : U256)
  | noValue
  | diverges
  deriving DecidableEq, Repr

/-- The engine of R200 with a given `ROOT_OF_UNITY` (R34 lets a model take it as an argument). -/
def sqrtVtWith (rootOfUnity a : U256) : SqrtResult :=
  latch (powVt a Config.expLeg) fun l =>
  if ctEq l U256.zero then .root a
  else if !ctEq l Config.rOne then .noValue
  else
    (sqrtLoop Config.twoAdicity ⟨rootOfUnity, powVt a Config.expTp1h, powVt a Config.expT, Config.twoAdicity⟩).elim
      .diverges (fun r => .root r)

/-- `sqrt_vt(a)` with the `ROOT_OF_UNITY` of Config (R200, spec/10_state.md R33). -/
def sqrtVt (a : U256) : SqrtResult := sqrtVtWith Config.rootOfUnity a

end Sys2Proof.Machine
end

