-- ==== Sys2Proof/Machine/Exponentiation.lean ====
section
/-! DEFINITION. The meanings of the engine commands `POWC`, `POWV` (spec/43_exponentiation.md R173, R174), `INV`
(spec/44_inversion.md R190, R192) and `SQRT` (spec/45_sqrt.md R201). -/

namespace Sys2Proof.Machine

/-- `POWC Fd, Fa`: `F[rd] <- pow_ct(F[ra], DATAV)` (R173). -/
def execPowc (rd ra : FReg) (s : State) : Outcome := .next (writeF s rd (powCt (readF s ra) (exponentOperand s)))

/-- `POWV Fd, Fa`: `F[rd] <- pow_vt(F[ra], DATAV)` (R174). -/
def execPowv (rd ra : FReg) (s : State) : Outcome := .next (writeF s rd (powVt (readF s ra) (exponentOperand s)))

/-- `INV Fd, Fa`: `F[rd] <- inv_chain(F[ra])`; no status field is written, for zero either (R190, R192). -/
def execInv (rd ra : FReg) (s : State) : Outcome := .next (writeF s rd (invChain (readF s ra)))

/-- What `SQRT` writes for each end of the engine: the root with `NONE` 0, or `NONE` 1 and `F[rd]` as it was (R201). The
fault is the spec's `stuck`, which it says cannot arise (R202; spec/93_implementation_defined.md I14). -/
def finishSqrt (rd : FReg) (s : State) (r : SqrtResult) : Outcome :=
  match r with
  | .root v => .next (setNone (writeF s rd v) false)
  | .noValue => .next (setNone s true)
  | .diverges => .fault .sqrtDiverges

/-- `SQRT Fd, Fa`: `sqrt_vt(F[ra])` and what it writes (R201). -/
def execSqrt (rd ra : FReg) (s : State) : Outcome := finishSqrt rd s (sqrtVt (readF s ra))

end Sys2Proof.Machine
end

