-- ==== Sys2Proof/Machine/Representation.lean ====
section
/-! DEFINITION. The meanings of the representation commands `ZERO`, `ONE`, `FROMU64`, `DEC`, `ENC`
(spec/41_representation.md R120 to R126). -/

namespace Sys2Proof.Machine

/-- `ZERO Fd`: `F[rd] <- [0, 0, 0, 0]` (R120). -/
def execZero (rd : FReg) (s : State) : Outcome := .next (writeF s rd U256.zero)

/-- `ONE Fd`: `F[rd] <- R` (R121). -/
def execOne (rd : FReg) (s : State) : Outcome := .next (writeF s rd Config.rOne)

/-- `FROMU64 Fd`: `F[rd] <- mont_mul(zext_256(DATA[0]), R2)` (R122). -/
def execFromu64 (rd : FReg) (s : State) : Outcome := .next (writeF s rd (montMul (smallOperand s) Config.r2))

/-- `DEC Fd`: a canonical `x = DATAV` is Montgomery-encoded into `F[rd]` and `NONE` is 0; otherwise `NONE` is 1 and
`F[rd]` stays (R124). -/
def execDec (rd : FReg) (s : State) : Outcome :=
  let x := dataV s
  .next (if ltModulus x then setNone (writeF s rd (montMul x Config.r2)) false else setNone s true)

/-- `ENC Fa`: `DATA <- from_mont(F[ra])`, limb by limb (R126). -/
def execEnc (ra : FReg) (s : State) : Outcome := .next (writeDataAll s (fromMont (readF s ra)))

end Sys2Proof.Machine
end

