-- ==== Sys2Proof/Machine/Ring.lean ====
section
/-! DEFINITION. The meanings of the ring commands `NEG`, `ADD`, `SUB`, `MUL`, `SQR` (spec/42_ring_ops.md R147 to R151).
Sources are read before the destination is written (spec/10_state.md R23). -/

namespace Sys2Proof.Machine

/-- `NEG Fd, Fa`: `F[rd] <- neg_mod(F[ra])` (R147). -/
def execNeg (rd ra : FReg) (s : State) : Outcome := .next (writeF s rd (negMod (readF s ra)))

/-- `ADD Fd, Fa, Fb`: `F[rd] <- add_mod(F[ra], F[rb])` (R148). -/
def execAdd (rd ra rb : FReg) (s : State) : Outcome := .next (writeF s rd (addMod (readF s ra) (readF s rb)))

/-- `SUB Fd, Fa, Fb`: `F[rd] <- sub_mod(F[ra], F[rb])` (R149). -/
def execSub (rd ra rb : FReg) (s : State) : Outcome := .next (writeF s rd (subMod (readF s ra) (readF s rb)))

/-- `MUL Fd, Fa, Fb`: `F[rd] <- mont_mul(F[ra], F[rb])` (R150). -/
def execMul (rd ra rb : FReg) (s : State) : Outcome := .next (writeF s rd (montMul (readF s ra) (readF s rb)))

/-- `SQR Fd, Fa`: `F[rd] <- mont_sqr(F[ra])` (R151). -/
def execSqr (rd ra : FReg) (s : State) : Outcome := .next (writeF s rd (montSqr (readF s ra)))

end Sys2Proof.Machine
end

