-- ==== Sys2Proof/Machine/Dispatch.lean ====
section
/-! DEFINITION. The one dispatch from a command to its meaning (spec/30_encoding.md R73). -/

namespace Sys2Proof.Machine

def exec (i : Instr) (s : State) : Host.Outcome State Fault Refusal :=
  match i with
  -- representation (spec/41_representation.md)
  | .zero rd => Sys2Proof.Machine.execZero rd s
  | .one rd => Sys2Proof.Machine.execOne rd s
  | .fromu64 rd => Sys2Proof.Machine.execFromu64 rd s
  | .dec rd => Sys2Proof.Machine.execDec rd s
  | .enc ra => Sys2Proof.Machine.execEnc ra s
  -- ring operations (spec/42_ring_ops.md)
  | .neg rd ra => Sys2Proof.Machine.execNeg rd ra s
  | .add rd ra rb => Sys2Proof.Machine.execAdd rd ra rb s
  | .sub rd ra rb => Sys2Proof.Machine.execSub rd ra rb s
  | .mul rd ra rb => Sys2Proof.Machine.execMul rd ra rb s
  | .sqr rd ra => Sys2Proof.Machine.execSqr rd ra s
  -- exponentiation, inversion, square root (spec/43_exponentiation.md, 44_inversion.md, 45_sqrt.md)
  | .powc rd ra => Sys2Proof.Machine.execPowc rd ra s
  | .powv rd ra => Sys2Proof.Machine.execPowv rd ra s
  | .inv rd ra => Sys2Proof.Machine.execInv rd ra s
  | .sqrt rd ra => Sys2Proof.Machine.execSqrt rd ra s
  -- constant-time primitives (spec/46_ct_primitives.md)
  | .eq ra rb => Sys2Proof.Machine.execEq ra rb s
  | .sel rd ra rb => Sys2Proof.Machine.execSel rd ra rb s

end Sys2Proof.Machine
end

