-- ==== Sys2Proof/Machine/Window.lean ====
section
/-! DEFINITION. The host register window (spec/20_memory.md R50 to R56): which register an access reaches, what a read
returns, what a write does, and the execution of a command written to `CMD` (R54). -/

namespace Sys2Proof.Machine

/-- The register at an offset of the window, if there is one (R50). -/
def winRegAt (offset : Int) : Option WinReg :=
  if offset = 0x00 then some (.data 0)
  else if offset = 0x08 then some (.data 1)
  else if offset = 0x10 then some (.data 2)
  else if offset = 0x18 then some (.data 3)
  else if offset = 0x20 then some .cmd
  else if offset = 0x28 then some .status
  else none

/-- The offset of a register in the window (R50). -/
def winOffset : WinReg → Int
  | .data 0 => 0x00
  | .data 1 => 0x08
  | .data 2 => 0x10
  | .data 3 => 0x18
  | .cmd => 0x20
  | .status => 0x28

/-- The access a host makes at a byte address of its own address space: `addr = BASE + offset` (spec/00_scope.md R11). -/
def accessAt (kind : AccessKind) (addr width : Nat) : Access := ⟨kind, (addr : Int) - (Config.base : Int), width⟩

/-- `RD <reg>`, the host's `MemRead(BASE + off(reg), 8)` (spec/30_encoding.md R77). -/
def hostRd (r : WinReg) : HostEvent := .access ⟨.read, winOffset r, 8⟩

/-- `WR <reg>, <v>`, the host's `MemWrite(BASE + off(reg), 8, v)` (spec/30_encoding.md R77). -/
def hostWr (r : WinReg) (v : Word) : HostEvent := .access ⟨.write v, winOffset r, 8⟩

/-- `MemRead` on a well-formed access: what a host read of a register returns (R52, R53, R55, R56). -/
def memRead (s : State) : WinReg → Word
  | .data i => readData s i
  | .cmd => 0
  | .status => packStatus s

/-- `execute_command(v)`: decode, then the command's meaning or the record of an illegal command, as one atomic step
(R54). -/
def executeCommand (v : Word) (s : State) : Outcome :=
  match decode v with
  | .cmd i => exec i s
  | .illegal c => .next (raiseIllegal c s)

/-- `MemWrite` on a well-formed access: a data word is replaced (R53), a command is executed (R54), a write to `STATUS`
has no effect (R56). -/
def memWrite (s : State) (r : WinReg) (v : Word) : Outcome :=
  match r with
  | .data i => .next (writeData s i v)
  | .cmd => executeCommand v s
  | .status => .next s

/-- An access that reached a register of the window (R52). -/
def accessReg (r : WinReg) (k : AccessKind) (s : State) : Outcome :=
  match k with
  | .read => .next (reply s (memRead s r))
  | .write v => memWrite s r v

/-- A host access: refused unless it is 8 bytes wide, aligned and at one of the six offsets (R51, spec/60_exceptions.md
R245). -/
def acceptAccess (a : Access) (s : State) : Outcome :=
  if a.width ≠ 8 then .refused .accessWidth
  else if a.offset % 8 ≠ 0 then .refused .accessMisaligned
  else
    match winRegAt a.offset with
    | none => .refused .accessOutsideWindow
    | some r => accessReg r a.kind s

/-- A host event: an access, or a reset between commands (spec/70_reset_and_hazards.md R270). -/
def acceptEvent (e : HostEvent) (s : State) : Outcome :=
  match e with
  | .access a => acceptAccess a s
  | .reset => .next (resetBlock s)

end Sys2Proof.Machine
end

