-- ==== Sys2Proof/Machine/Step.lean ====
section
/-! DEFINITION. One step of the machine: the window accepts the next host event whole before the next one is looked at
(spec/10_state.md R20, spec/20_memory.md R60, R62); with no event the block is idle (spec/60_exceptions.md R252). -/

namespace Sys2Proof.Machine

/-- One step. The engine has no step of its own apart from a host write to `CMD` (R20). -/
def step (s : State) : Host.Outcome State Fault Refusal :=
  match s.inbox with
  | [] => .next (idle s)
  | e :: rest => acceptEvent e (setInbox s rest)

/-- `s` with the command word `w` as the next value written to `CMD`, so that the next step executes it. The block
fetches nothing (spec/20_memory.md R64): this stands for the host's write, put before the events already waiting. -/
def State.withFetchWord (s : State) (nbits w : Nat) : State :=
  setInbox s (hostWr .cmd (BitVec.ofNat 64 (w % 2 ^ nbits)) :: s.inbox)

end Sys2Proof.Machine
end

