-- ==== Sys2Proof/Machine/Field.lean ====
section
/-! DEFINITION. The modular notation of spec/00_scope.md R12, for statements about what a stored representative stands
for. No meaning of a command calls anything of this file. -/

namespace Sys2Proof.Machine

/-- `RADIX^-1 mod q` (R12): the number in `[0, q)` whose product with `2^256` is 1 modulo `q`. -/
def radixInv : Nat := 0x1bbe869330009d577204078a4f77266aab6fca8f09dc705f13f75b69fe75c040

/-- `val(v) = v * RADIX^-1 mod q`, the logical value a stored representative stands for (R12). -/
def val (v : U256) : Nat := v.toNat * radixInv % Config.q

/-- `mont(a) = a * RADIX mod q`, the Montgomery encoding of a logical value (R12). -/
def mont (a : Nat) : U256 := U256.ofNat (a * Config.radix % Config.q)

/-- The representative is reduced: `0 <= v < q` (spec/10_state.md R22). -/
abbrev reduced (v : U256) : Prop := v.toNat < Config.q

/-- The logical value is a nonzero square modulo `q`, "a quadratic residue" (spec/00_scope.md R15). -/
def isResidue (a : Nat) : Prop := a % Config.q ≠ 0 ∧ ∃ r : Nat, r * r % Config.q = a % Config.q

/-- The representative stands for a primitive `2^S`-th root of unity: its logical value `c` has `c^(2^32) = 1` and
`c^(2^31) = q - 1` (spec/10_state.md R34). -/
def primitiveRoot (c : U256) : Prop :=
  reduced c ∧ val c ^ (2 ^ 32) % Config.q = 1 ∧ val c ^ (2 ^ 31) % Config.q = Config.q - 1

end Sys2Proof.Machine
end

