-- ==== Sys2Proof/Machine/Trace.lean ====
section
/-! DEFINITION. The operation trace of a command, the only timing observation a model makes
(spec/70_reset_and_hazards.md R275 to R281). It stands beside the step function: no meaning of a command reads it. Each
engine is written a second time here with a log of the datapath operations it performs. -/

namespace Sys2Proof.Machine

/-- The alphabet of the trace (R275). -/
inductive TraceOp where
  /-- `SQR`: one `mont_sqr`. -/
  | sqr
  /-- `MUL`: one `mont_mul`. -/
  | mul
  /-- `SEL`: one `ct_select`. -/
  | sel
  /-- `REDC`: one `from_mont`. -/
  | redc
  /-- `ADDM`: one `add_mod`. -/
  | addm
  /-- `SUBM`: one `sub_mod`. -/
  | subm
  /-- `NEGM`: one `neg_mod`. -/
  | negm
  /-- `CEQ`: one `ct_eq`. -/
  | ceq
  /-- `CMPL(i)`: one limb comparison of `lt_modulus` at limb `i`. -/
  | cmpl (i : Fin 4)
  deriving DecidableEq, Repr

/-- `pow_ct`'s loop with the operations it performs (spec/43_exponentiation.md R170). -/
def powCtLogLoop (b e : U256) : Nat → U256 → U256 × List TraceOp
  | 0, acc => (acc, [])
  | n + 1, acc =>
    latch (montSqr acc) fun acc =>
      latch (montMul acc b) fun tmp =>
        let r := powCtLogLoop b e n (ctSelect acc tmp (e.bit n))
        (r.1, .sqr :: .mul :: .sel :: r.2)

/-- `pow_ct` with its operations (R170, R276). -/
def powCtLog (b e : U256) : U256 × List TraceOp := powCtLogLoop b e 256 Config.rOne

/-- `pow_vt`'s loop with the operations it performs (spec/43_exponentiation.md R171). -/
def powVtLogLoop (b e : U256) : Nat → U256 → U256 × List TraceOp
  | 0, acc => (acc, [])
  | n + 1, acc =>
    latch (montSqr acc) fun acc =>
      if e.bit n then
        latch (montMul acc b) fun acc =>
          let r := powVtLogLoop b e n acc
          (r.1, .sqr :: .mul :: r.2)
      else
        let r := powVtLogLoop b e n acc
        (r.1, .sqr :: r.2)

/-- `pow_vt` with its operations (R171, R277). -/
def powVtLog (b e : U256) : U256 × List TraceOp := powVtLogLoop b e 256 Config.rOne

/-- The operation of one chain step (spec/44_inversion.md R191). -/
def chainStepOp : ChainStep → TraceOp
  | .sqr _ => .sqr
  | .mul _ _ => .mul

/-- The operations of an inversion schedule: a fixed sequence, which the operand cannot change (R191, R278). -/
def scheduleTrace : InvSchedule → List TraceOp
  | .powCt => (powCtLog Config.rOne Config.expQm2).2
  | .chain steps => steps.map chainStepOp

/-- `repeat n times: c <- mont_sqr(c)` with its operations (spec/45_sqrt.md R200). -/
def squareTimesLog (n : Nat) (c : U256) : U256 × List TraceOp := (squareTimes n c, List.replicate n .sqr)

/-- The inner search of the square root with its operations: one comparison for every candidate, one squaring for every
failed one (spec/45_sqrt.md R200, R279). -/
def orderSearchLog : Nat → Nat → U256 → Option Nat × List TraceOp
  | 0, _, _ => (none, [])
  | fuel + 1, i, t2 =>
    if ctEq t2 Config.rOne then (some i, [.ceq])
    else
      latch (montSqr t2) fun t2 =>
        let r := orderSearchLog fuel (i + 1) t2
        (r.1, .ceq :: .sqr :: r.2)

/-- The updates of one round with their operations (spec/45_sqrt.md R200, R279). -/
def sqrtUpdateLog (v : SqrtVars) (i : Nat) : SqrtVars × List TraceOp :=
  let sq := squareTimesLog (v.m - i - 1) v.c
  latch sq.1 fun c =>
    latch (montMul v.r c) fun r =>
      latch (montSqr c) fun c =>
        latch (montMul v.w c) fun w => (⟨c, r, w, i⟩, sq.2 ++ [.mul, .sqr, .mul])

/-- One round of the refinement loop with its operations: the test of `w`, the first squaring, the inner search, the
updates (spec/45_sqrt.md R200, R279). -/
def sqrtRoundLog (v : SqrtVars) : Option SqrtVars × List TraceOp :=
  let found := orderSearchLog Config.twoAdicity 1 (montSqr v.w)
  found.1.elim (none, .ceq :: .sqr :: found.2) fun i =>
    let u := sqrtUpdateLog v i
    (some u.1, (.ceq :: .sqr :: found.2) ++ u.2)

/-- The refinement loop of the square root with its operations (spec/45_sqrt.md R200, R279). -/
def sqrtLoopLog : Nat → SqrtVars → Option U256 × List TraceOp
  | 0, v => (if ctEq v.w Config.rOne then some v.r else none, [.ceq])
  | fuel + 1, v =>
    if ctEq v.w Config.rOne then (some v.r, [.ceq])
    else
      let round := sqrtRoundLog v
      round.1.elim (none, round.2) fun next =>
        let rest := sqrtLoopLog fuel next
        (rest.1, round.2 ++ rest.2)

/-- The square-root engine with its operations (spec/45_sqrt.md R200, R279). -/
def sqrtVtLog (a : U256) : SqrtResult × List TraceOp :=
  let leg := powVtLog a Config.expLeg
  latch leg.1 fun l =>
  if ctEq l U256.zero then (.root a, leg.2 ++ [.ceq])
  else if !ctEq l Config.rOne then (.noValue, leg.2 ++ [.ceq, .ceq])
  else
    let r := powVtLog a Config.expTp1h
    let w := powVtLog a Config.expT
    let loop := sqrtLoopLog Config.twoAdicity ⟨Config.rootOfUnity, r.1, w.1, Config.twoAdicity⟩
    (loop.1.elim .diverges (fun v => .root v), leg.2 ++ [.ceq, .ceq] ++ r.2 ++ w.2 ++ loop.2)

/-- The limb comparisons of `lt_modulus` at limbs `i`, `i-1`, ... down to the first that differs
(spec/41_representation.md R123, R280); the list holds the limbs of `x` and of the modulus with their index. -/
def ltLimbsLog : List (Word × Word × Fin 4) → Bool × List TraceOp
  | [] => (false, [])
  | (x, m, i) :: rest =>
    if x < m then (true, [.cmpl i])
    else if m < x then (false, [.cmpl i])
    else
      let r := ltLimbsLog rest
      (r.1, .cmpl i :: r.2)

/-- `lt_modulus` with its operations (R280). -/
def ltModulusLog (x : U256) : Bool × List TraceOp :=
  ltLimbsLog [(x.l3, Config.modulus.l3, 3), (x.l2, Config.modulus.l2, 2), (x.l1, Config.modulus.l1, 1),
    (x.l0, Config.modulus.l0, 0)]

/-- The trace of a legal command in a state (R276 to R281). -/
def instrTrace (i : Instr) (s : State) : List TraceOp :=
  match i with
  | .zero _ => []
  | .one _ => []
  | .fromu64 _ => [.mul]
  | .dec _ =>
    let r := ltModulusLog (dataV s)
    r.2 ++ if r.1 then [.mul] else []
  | .enc _ => [.redc]
  | .neg _ _ => [.negm]
  | .add _ _ _ => [.addm]
  | .sub _ _ _ => [.subm]
  | .mul _ _ _ => [.mul]
  | .sqr _ _ => [.sqr]
  | .powc _ ra => (powCtLog (readF s ra) (exponentOperand s)).2
  | .powv _ ra => (powVtLog (readF s ra) (exponentOperand s)).2
  | .inv _ _ => scheduleTrace Config.invSchedule
  | .sqrt _ ra => (sqrtVtLog (readF s ra)).2
  | .eq _ _ => [.ceq]
  | .sel _ _ _ => [.sel]

/-- `trace : State -> u64 -> List Op` (R275): the operations of the command a host writes to `CMD`; an illegal command
has an empty trace (R281). -/
def trace (s : State) (v : Word) : List TraceOp :=
  match decode v with
  | .cmd i => instrTrace i s
  | .illegal _ => []

end Sys2Proof.Machine
end

