-- ==== Sys2Proof/WellFormed.lean ====
section
/-! DEFINITION. What makes a term of the model's input languages well-formed: the five fields of a command word
(spec/30_encoding.md R70, R73, R74), a host access (spec/20_memory.md R51) and an inversion chain (spec/44_inversion.md
R191). A term of `Instr` itself is well-formed by its type: its register numbers are `Fin 16` (R71) and a field that an
opcode does not use has no place in it (R74), so no ill-formed `Instr` can be written down. -/

namespace Sys2Proof

/-- The five fields of format `R` (R70). -/
structure CmdFields where
  op : BitVec 8
  rd : BitVec 4
  ra : BitVec 4
  rb : BitVec 4
  rsv : BitVec 12
  deriving DecidableEq, Repr

/-- The "used" cells of the opcode map, in the order `rd`, `ra`, `rb`; `none` for a reserved opcode (R73, R75). -/
def opUses (op : BitVec 8) : Option (Bool × Bool × Bool) :=
  match op.toNat with
  | 0x01 | 0x02 | 0x03 | 0x04 => some (true, false, false)
  | 0x05 => some (false, true, false)
  | 0x08 | 0x0C | 0x10 | 0x11 | 0x12 | 0x13 => some (true, true, false)
  | 0x09 | 0x0A | 0x0B | 0x19 => some (true, true, true)
  | 0x18 => some (false, true, true)
  | _ => none

/-- The opcode is in the map (R75: every other value is reserved and illegal). -/
def CmdFields.opListed (c : CmdFields) : Bool := (opUses c.op).isSome

/-- The reserved field is zero (R70). -/
def CmdFields.rsvZero (c : CmdFields) : Bool := c.rsv == 0

/-- Every register field that the opcode does not use is zero (R74). -/
def CmdFields.unusedZero (c : CmdFields) : Bool :=
  match opUses c.op with
  | some (d, a, b) => (d || c.rd == 0) && (a || c.ra == 0) && (b || c.rb == 0)
  | none => true

/-- The fields spell a legal command (R70, R73, R74). -/
def CmdFields.wellFormed (c : CmdFields) : Bool := c.opListed && c.rsvZero && c.unusedZero

/-- The access is 8 bytes wide (R51). -/
def Machine.Access.widthOk (a : Access) : Bool := a.width == 8

/-- The access is naturally aligned: `(addr - BASE) mod 8 = 0` (R51). -/
def Machine.Access.alignOk (a : Access) : Bool := a.offset % 8 == 0

/-- The access lies in the window of `WINDOW_BYTES = 0x30` bytes (R50, R51). -/
def Machine.Access.inWindow (a : Access) : Bool := decide (0 ≤ a.offset) && decide (a.offset < 0x30)

/-- "Such accesses are called well-formed" (R51). -/
def Machine.Access.wellFormed (a : Access) : Bool := a.widthOk && a.alignOk && a.inWindow

/-- Every access of a host event is well-formed; a reset always is. -/
def Machine.HostEvent.wellFormed : HostEvent → Bool
  | .access a => a.wellFormed
  | .reset => true

/-- The operand names something defined earlier: `n` intermediates stand before this step (R191). -/
def ChainSrc.scoped (n : Nat) : ChainSrc → Bool
  | .input => true
  | .one => true
  | .tmp back => decide (back < n)

/-- Every operand of the step names something defined earlier (R191). -/
def ChainStep.scoped (n : Nat) : ChainStep → Bool
  | .sqr a => a.scoped n
  | .mul a b => a.scoped n && b.scoped n

/-- Every step of a chain, of which `n` intermediates are already defined, is scoped (R191: "each defined once from
earlier ones"). -/
def chainScoped : Nat → List ChainStep → Bool
  | _, [] => true
  | n, s :: rest => s.scoped n && chainScoped (n + 1) rest

/-- The schedule is a straight-line sequence over intermediates defined earlier (R191), or the spec's substitute. -/
def InvSchedule.wellFormed : InvSchedule → Bool
  | .powCt => true
  | .chain steps => chainScoped 0 steps

end Sys2Proof
end

