-- ==== Sys2Proof/Safety.lean ====
section
/-! DEFINITION. The terms claims are stated in: the invariant of the block (spec/10_state.md R22, R26, R29), a run that
met no illegal command (spec/60_exceptions.md R241), runs over the host's event streams and their interleavings
(spec/20_memory.md R62, R63), and the host's public-data obligation (spec/70_reset_and_hazards.md R274). -/

namespace Sys2Proof.Machine

/-- The invariant of the architectural state: every element register is reduced (R22), `CAUSE` is one of 0 to 4, and
`CAUSE` is 0 exactly while no illegal command has been recorded (R26, R242). -/
structure State.Inv (s : State) : Prop where
  reducedF : ∀ i : FReg, reduced (readF s i)
  causeLegal : s.cause.toNat ≤ 4
  causeZero : s.cause = 0 ↔ s.ill = false

/-- No illegal command has been written since reset: the premise "`ILL = 0` at its end" of a claim about a host program
(R241). -/
def State.noIllegal (s : State) : Bool := !s.ill

/-- Every element register holds what it held. -/
def sameRegs (s t : State) : Prop := ∀ j : FReg, readF t j = readF s j

/-- Every element register but `rd` holds what it held. -/
def sameRegsBut (rd : FReg) (s t : State) : Prop := ∀ j : FReg, j ≠ rd → readF t j = readF s j

/-- Every data word holds what it held. -/
def sameData (s t : State) : Prop := ∀ i : Fin 4, readData t i = readData s i

/-- Every field of `STATUS` holds what it held (R26). -/
def sameStatus (s t : State) : Prop :=
  t.eqFlag = s.eqFlag ∧ t.noneFlag = s.noneFlag ∧ t.ill = s.ill ∧ t.cause = s.cause

/-- The host's side of the window (the model's own fields) is what it was. -/
def samePort (s t : State) : Prop := t.inbox = s.inbox ∧ t.replies = s.replies

/-- The frame of a command whose only effect is to write `F[rd]`: no other register, no data word, no field of
`STATUS`. -/
def writesOnlyF (rd : FReg) (s t : State) : Prop :=
  sameRegsBut rd s t ∧ sameData s t ∧ sameStatus s t ∧ samePort s t

/-- The value a host writes to `CMD` for these fields, laid out by the columns of R70 as a sum: `op` from bit 0, `rd`
from bit 8, `ra` from bit 12, `rb` from bit 16, everything above 0. -/
def commandWord (op : Nat) (rd ra rb : FReg) : Word :=
  BitVec.ofNat 64 (op + rd.val * 2 ^ 8 + ra.val * 2 ^ 12 + rb.val * 2 ^ 16)

/-- The sequence R277 gives for an exponent `e`: for `i = 255 downto 0`, `SQR` followed by `MUL` when `e[i] = 1`. -/
def powBitsTrace (e : U256) : List TraceOp :=
  (List.range 256).reverse.flatMap (fun i => if e.bit i then [.sqr, .mul] else [.sqr])

/-- The sequence spec/70_reset_and_hazards.md R279 gives for one round of the square root's loop, from the order `m` to
the found order `i`: `CEQ, SQR, (CEQ, SQR)^(i-1), CEQ, SQR^(m-i-1), MUL, SQR, MUL`. -/
def sqrtRoundTrace (m i : Nat) : List TraceOp :=
  List.flatten [[.ceq, .sqr], (List.replicate (i - 1) [.ceq, .sqr]).flatten, [.ceq], List.replicate (m - i - 1) .sqr,
    [.mul, .sqr, .mul]]

/-- `zs` is an interleaving of the event streams of two bus masters: one total order that respects each master's issue
order (R63). -/
inductive Interleaves : List HostEvent → List HostEvent → List HostEvent → Prop where
  | nil : Interleaves [] [] []
  | left (e : HostEvent) {xs ys zs : List HostEvent} : Interleaves xs ys zs → Interleaves (e :: xs) ys (e :: zs)
  | right (e : HostEvent) {xs ys zs : List HostEvent} : Interleaves xs ys zs → Interleaves xs (e :: ys) (e :: zs)

/-- The commands whose trace may depend on data: "The variable-time commands are `DEC`, `POWV` and `SQRT`" (R274). -/
def variableTime : Instr → Bool
  | .dec _ => true
  | .powv _ _ => true
  | .sqrt _ _ => true
  | .zero _ => false
  | .one _ => false
  | .fromu64 _ => false
  | .enc _ => false
  | .neg _ _ => false
  | .add _ _ _ => false
  | .sub _ _ _ => false
  | .mul _ _ _ => false
  | .sqr _ _ => false
  | .powc _ _ => false
  | .inv _ _ => false
  | .eq _ _ => false
  | .sel _ _ _ => false

/-- Two states agree on the operand that a variable-time command must be given public data in (R274): `DATA` for `DEC`
and for the exponent of `POWV`, `F[ra]` for `SQRT`. -/
def agreeOnPublic (i : Instr) (s t : State) : Prop :=
  match i with
  | .dec _ => dataV s = dataV t
  | .powv _ _ => dataV s = dataV t
  | .sqrt _ ra => readF s ra = readF t ra
  | .zero _ => True
  | .one _ => True
  | .fromu64 _ => True
  | .enc _ => True
  | .neg _ _ => True
  | .add _ _ _ => True
  | .sub _ _ _ => True
  | .mul _ _ _ => True
  | .sqr _ _ => True
  | .powc _ _ => True
  | .inv _ _ => True
  | .eq _ _ => True
  | .sel _ _ _ => True

end Sys2Proof.Machine
end

