-- ==== Sys2Proof/Certificates/Slice0/Obligations.lean ====
section
/-! DEFINITION. The statements for the provers, from the numbered rules of spec/. An element register holds a reduced
value in every state a run reaches (`StepKeepsInvariant`, `ResetMeetsInvariant`), so a statement about an arithmetic
result takes `reduced` of its operands as a premise. -/

open Sys2Proof Sys2Proof.Machine

/-! Encoding. -/

/-- Decoding the word of a command gives the command back, every operand at every value (R70, R73, R79). -/
def Obligations.DecodeOfEncodeIsTheCommand : Prop := ∀ i : Instr, decode (encode i) = .cmd i

/-- A legal value written to `CMD` is the encoding of the command it decodes to: one spelling for every legal word
(R74). -/
def Obligations.LegalWordHasOneSpelling : Prop := ∀ (v : Word) (i : Instr), decode v = .cmd i → v = encode i

/-- A 32-bit word decodes to the opcode of a row of the table exactly when it has the row's fixed bits (R79). -/
def Obligations.DecodeAgreesWithTableRows : Prop :=
  ∀ (w : BitVec 32) (r : TableRow), r ∈ opcodeTable →
    ((∃ i, decode (w.setWidth 64) = .cmd i ∧ opcodeOfInstr i = r.opcode) ↔ r.matchesWord w = true)

/-- The four illegal conditions, in the order 1, 2, 3, 4, over the fields of R71 and the used cells of R73; a word that
meets none of them is legal (R79, R243, with the cause codes of R242). -/
def Obligations.DecoderReportsFirstCause : Prop :=
  ∀ v : Word,
    let n := v.toNat
    let c : CmdFields := ⟨BitVec.ofNat 8 n, BitVec.ofNat 4 (n / 2 ^ 8), BitVec.ofNat 4 (n / 2 ^ 12),
      BitVec.ofNat 4 (n / 2 ^ 16), BitVec.ofNat 12 (n / 2 ^ 20)⟩
    (2 ^ 32 ≤ n → decode v = .illegal .cmdHigh) ∧
    (n < 2 ^ 32 → c.opListed = false → decode v = .illegal .badOpcode) ∧
    (n < 2 ^ 32 → c.opListed = true → c.rsvZero = false → decode v = .illegal .rsvBits) ∧
    (n < 2 ^ 32 → c.opListed = true → c.rsvZero = true → c.unusedZero = false → decode v = .illegal .unusedField) ∧
    (n < 2 ^ 32 → c.wellFormed = true → ∃ i, decode v = .cmd i) ∧
    causeCode .cmdHigh = 1 ∧ causeCode .badOpcode = 2 ∧ causeCode .rsvBits = 3 ∧ causeCode .unusedField = 4

/-- Words written out in the spec decode to the command, or the cause, the spec gives them (R79;
spec/95_test_vectors.md 2.8). -/
def Obligations.SampleWordsDecode : Prop :=
  decode 0x00000701 = .cmd (.zero 7) ∧ decode 0x00001005 = .cmd (.enc 1) ∧ decode 0x00021309 = .cmd (.add 3 1 2) ∧
  decode 0x00001210 = .cmd (.powc 2 1) ∧ decode 0x00001213 = .cmd (.sqrt 2 1) ∧ decode 0x00021018 = .cmd (.eq 1 2) ∧
  decode 0x00021301 = .illegal .unusedField ∧ decode 0xFFF000FF = .illegal .badOpcode ∧
  decode 0x100109 = .illegal .rsvBits ∧ decode 0x100000001 = .illegal .cmdHigh

/-- The pseudo-instructions expand to `ADD Fd, Fa, Fa`, `SEL Fd, Fa, Fa` and `ZERO Fd`, with the words of R78; `MOV`
copies `F[ra]` whatever `STATUS.EQ` is. -/
def Obligations.PseudoInstructionsExpand : Prop :=
  ∀ (rd ra : FReg) (s : State),
    expandPseudo (.dbl rd ra) = .add rd ra ra ∧ expandPseudo (.mov rd ra) = .sel rd ra ra ∧
    expandPseudo (.clr rd) = .zero rd ∧
    decode (commandWord 0x09 rd ra ra) = .cmd (expandPseudo (.dbl rd ra)) ∧
    decode (commandWord 0x19 rd ra ra) = .cmd (expandPseudo (.mov rd ra)) ∧
    decode (commandWord 0x01 rd 0 0) = .cmd (expandPseudo (.clr rd)) ∧
    exec (expandPseudo (.mov rd ra)) s = .next (writeF s rd (readF s ra))

/-! Constants. -/

/-- `q` is prime, has 255 significant bits and is below `2^255`: the inference R2 marks as its own ("audited with a
big-integer primality test"). -/
def Obligations.ModulusIsPrime : Prop := Nat.Prime Config.q ∧ 2 ^ 254 ≤ Config.q ∧ Config.q < 2 ^ 255

/-- The constant ROM holds the values of the definitions of `MODULUS`, `R`, `R2`, `INV`, `S` and the fixed exponents; the
literals are inferences R33 and R35 mark as their own ("derived: from the definition"). -/
def Obligations.ConstantRomMeetsDefinitions : Prop :=
  Config.modulus.toNat = Config.q ∧ Config.rOne.toNat = 2 ^ 256 % Config.q ∧
  Config.r2.toNat = 2 ^ 256 * 2 ^ 256 % Config.q ∧ (Config.modulus.l0 * Config.inv = limbMax) ∧
  Config.q - 1 = Config.expT.toNat * 2 ^ Config.twoAdicity ∧ Config.expT.toNat % 2 = 1 ∧
  Config.expQm2.toNat = Config.q - 2 ∧ Config.expLeg.toNat = (Config.q - 1) / 2 ∧
  Config.expTp1h.toNat = (Config.expT.toNat + 1) / 2

/-- The `ROOT_OF_UNITY` of R33 is a primitive `2^S`-th root of unity (R34: "The value of rule R33 meets this condition",
an inference the spec marks as its own; the value is notes/assumptions/7.md). -/
def Obligations.RootOfUnityIsPrimitive : Prop := primitiveRoot Config.rootOfUnity

/-! The datapath. -/

/-- Both products are exact: `mul4x4(a, b)` is the 512-bit product of any operands (R106's inference), `sqr4(a)` the square,
the value `mul4x4(a, a)` gives (R107: "the same value `mul4x4(a, a)` gives"). So `mont_sqr(a)` equals `mont_mul(a, a)`
bit for bit (R143's inference), and the Montgomery product is commutative (R150's inference "the raw result is the same
for swapped operands"). -/
def Obligations.ProductsAreExact : Prop :=
  (∀ a b : U256, (mul4x4 a b).toNat = a.toNat * b.toNat) ∧
  (∀ a : U256, sqr4 a = mul4x4 a a ∧ (sqr4 a).toNat = a.toNat * a.toNat ∧ montSqr a = montMul a a) ∧
  (∀ a b : U256, montMul a b = montMul b a)

/-- Both exponentiation engines give `mont(val(b)^e mod q)`, with `x^0 = 1` for every `x`, and a reduced value (R172,
an inference the spec marks as its own). -/
def Obligations.PowerEnginesGiveThePower : Prop :=
  ∀ b e : U256, reduced b →
    powCt b e = mont (val b ^ e.toNat % Config.q) ∧ powVt b e = powCt b e ∧ reduced (powCt b e)

/-- Any inversion schedule that meets R191's condition gives `INV` the same effect. -/
def Obligations.InversionScheduleDoesNotMatter : Prop :=
  ∀ (sch : InvSchedule), scheduleConforms sch → ∀ (rd ra : FReg) (s : State), reduced (readF s ra) →
    exec (.inv rd ra) s = .next (writeF s rd (scheduleRun sch (readF s ra)))

/-- The straight-line chain of squarings and multiplications read off the bits of `q - 2` is well-formed and meets
R191's condition. -/
def Obligations.BinaryChainConforms : Prop := binaryInvChain.wellFormed = true ∧ scheduleConforms binaryInvChain

/-- Tonelli-Shanks with any primitive `ROOT_OF_UNITY`, on a reduced operand: it ends; 0 is its own root; a non-residue
has no value; otherwise the result squares to the operand (R204, with the premise of R34 and the termination of R202:
inferences the spec marks as its own). -/
def Obligations.SquareRootIsCorrectForEveryRoot : Prop :=
  ∀ c a : U256, primitiveRoot c → reduced a →
    (val a = 0 → sqrtVtWith c a = .root a) ∧
    (isResidue (val a) → ∃ v, sqrtVtWith c a = .root v ∧ reduced v ∧ val v * val v % Config.q = val a) ∧
    (val a ≠ 0 → ¬ isResidue (val a) → sqrtVtWith c a = .noValue)

/-- The roots of the table of R203, with the default `ROOT_OF_UNITY` (the spec's decision D20). -/
def Obligations.PrincipalRootsOfSmallSquares : Prop :=
  sqrtVt (mont 1) = .root (mont 1) ∧ sqrtVt (mont 4) = .root (mont (Config.q - 2)) ∧
  sqrtVt (mont 9) = .root (mont (Config.q - 3)) ∧ sqrtVt (mont 16) = .root (mont (Config.q - 4)) ∧
  sqrtVt (mont 25) = .root (mont 5)

/-! The commands: each completes, with the result and the frame its rule gives. -/

/-- `ZERO Fd` (R120). -/
def Obligations.ZeroWritesZero : Prop :=
  ∀ (rd : FReg) (s : State),
    decode (commandWord 0x01 rd 0 0) = .cmd (.zero rd) ∧
    ∃ t, exec (.zero rd) s = .next t ∧ readF t rd = ⟨0, 0, 0, 0⟩ ∧ val (readF t rd) = 0 ∧ writesOnlyF rd s t

/-- `ONE Fd` (R121): the raw content is `R`, its logical value is 1. -/
def Obligations.OneWritesMontgomeryOne : Prop :=
  ∀ (rd : FReg) (s : State),
    decode (commandWord 0x02 rd 0 0) = .cmd (.one rd) ∧
    ∃ t, exec (.one rd) s = .next t ∧
      readF t rd = ⟨0x00000001fffffffe, 0x5884b7fa00034802, 0x998c4fefecbc4ff5, 0x1824b159acc5056f⟩ ∧
      val (readF t rd) = 1 ∧ writesOnlyF rd s t

/-- `FROMU64 Fd` (R122): `F[rd] = mont(DATA[0])`; the other data words are not read. -/
def Obligations.FromU64LiftsDataZero : Prop :=
  ∀ (rd : FReg) (s : State),
    decode (commandWord 0x03 rd 0 0) = .cmd (.fromu64 rd) ∧
    ∃ t, exec (.fromu64 rd) s = .next t ∧ readF t rd = mont (readData s 0).toNat ∧
      val (readF t rd) = (readData s 0).toNat ∧ writesOnlyF rd s t

/-- `DEC Fd` (R124): a canonical encoding is loaded with `NONE = 0`; an `x >= q` gives `NONE = 1` and leaves every
register. -/
def Obligations.DecLoadsCanonicalOnly : Prop :=
  ∀ (rd : FReg) (s : State),
    decode (commandWord 0x04 rd 0 0) = .cmd (.dec rd) ∧
    ∃ t, exec (.dec rd) s = .next t ∧ sameData s t ∧ samePort s t ∧
      t.eqFlag = s.eqFlag ∧ t.ill = s.ill ∧ t.cause = s.cause ∧ sameRegsBut rd s t ∧
      ((dataV s).toNat < Config.q → t.noneFlag = false ∧ readF t rd = mont (dataV s).toNat ∧
        val (readF t rd) = (dataV s).toNat) ∧
      (Config.q ≤ (dataV s).toNat → t.noneFlag = true ∧ readF t rd = readF s rd)

/-- `ENC Fa` (R126): the canonical value of `F[ra]` in all four data words, limb by limb. -/
def Obligations.EncWritesCanonicalValue : Prop :=
  ∀ (ra : FReg) (s : State),
    decode (commandWord 0x05 0 ra 0) = .cmd (.enc ra) ∧
    ∃ t, exec (.enc ra) s = .next t ∧ (dataV t).toNat = val (readF s ra) ∧ (dataV t).toNat < Config.q ∧
      (readData t 3).toNat ≤ 0x73eda753299d7d48 ∧ sameRegs s t ∧ sameStatus s t ∧ samePort s t

/-- `NEG Fd, Fa` (R147). -/
def Obligations.NegIsModularNegation : Prop :=
  ∀ (rd ra : FReg) (s : State), reduced (readF s ra) →
    decode (commandWord 0x08 rd ra 0) = .cmd (.neg rd ra) ∧
    ∃ t, exec (.neg rd ra) s = .next t ∧ reduced (readF t rd) ∧
      (readF t rd).toNat = (Config.q - (readF s ra).toNat) % Config.q ∧
      val (readF t rd) = (Config.q - val (readF s ra)) % Config.q ∧ writesOnlyF rd s t

/-- `ADD Fd, Fa, Fb` (R148). -/
def Obligations.AddIsModularAddition : Prop :=
  ∀ (rd ra rb : FReg) (s : State), reduced (readF s ra) → reduced (readF s rb) →
    decode (commandWord 0x09 rd ra rb) = .cmd (.add rd ra rb) ∧
    ∃ t, exec (.add rd ra rb) s = .next t ∧ reduced (readF t rd) ∧
      (readF t rd).toNat = ((readF s ra).toNat + (readF s rb).toNat) % Config.q ∧
      val (readF t rd) = (val (readF s ra) + val (readF s rb)) % Config.q ∧ writesOnlyF rd s t

/-- `SUB Fd, Fa, Fb` (R149): `F[ra] - F[rb]`. -/
def Obligations.SubIsModularSubtraction : Prop :=
  ∀ (rd ra rb : FReg) (s : State), reduced (readF s ra) → reduced (readF s rb) →
    decode (commandWord 0x0A rd ra rb) = .cmd (.sub rd ra rb) ∧
    ∃ t, exec (.sub rd ra rb) s = .next t ∧ reduced (readF t rd) ∧
      (readF t rd).toNat = ((readF s ra).toNat + Config.q - (readF s rb).toNat) % Config.q ∧
      val (readF t rd) = (val (readF s ra) + Config.q - val (readF s rb)) % Config.q ∧ writesOnlyF rd s t

/-- `MUL Fd, Fa, Fb` (R150): the logical product. -/
def Obligations.MulIsFieldMultiplication : Prop :=
  ∀ (rd ra rb : FReg) (s : State), reduced (readF s ra) → reduced (readF s rb) →
    decode (commandWord 0x0B rd ra rb) = .cmd (.mul rd ra rb) ∧
    ∃ t, exec (.mul rd ra rb) s = .next t ∧ reduced (readF t rd) ∧
      val (readF t rd) = val (readF s ra) * val (readF s rb) % Config.q ∧ writesOnlyF rd s t

/-- `SQR Fd, Fa` (R151): the logical square; the raw result equals that of `MUL Fd, Fa, Fa`. -/
def Obligations.SqrIsFieldSquaring : Prop :=
  ∀ (rd ra : FReg) (s : State), reduced (readF s ra) →
    decode (commandWord 0x0C rd ra 0) = .cmd (.sqr rd ra) ∧
    exec (.sqr rd ra) s = exec (.mul rd ra ra) s ∧
    ∃ t, exec (.sqr rd ra) s = .next t ∧ reduced (readF t rd) ∧
      val (readF t rd) = val (readF s ra) * val (readF s ra) % Config.q ∧ writesOnlyF rd s t

/-- `POWC Fd, Fa` (R173): `A^e` with the exponent `e = DATAV`, not reduced, and `0^0 = 1`; the trace is the same in every
state. -/
def Obligations.PowcIsExponentiation : Prop :=
  ∀ (rd ra : FReg) (s : State), reduced (readF s ra) →
    decode (commandWord 0x10 rd ra 0) = .cmd (.powc rd ra) ∧
    (∀ u, trace u (commandWord 0x10 rd ra 0) = trace s (commandWord 0x10 rd ra 0)) ∧
    ∃ t, exec (.powc rd ra) s = .next t ∧ reduced (readF t rd) ∧
      val (readF t rd) = val (readF s ra) ^ (dataV s).toNat % Config.q ∧ writesOnlyF rd s t

/-- `POWV Fd, Fa` (R174): the value of `POWC` with the same operands; the trace depends on `e = DATAV` only. -/
def Obligations.PowvIsExponentiation : Prop :=
  ∀ (rd ra : FReg) (s : State), reduced (readF s ra) →
    decode (commandWord 0x11 rd ra 0) = .cmd (.powv rd ra) ∧
    exec (.powv rd ra) s = exec (.powc rd ra) s ∧
    (∀ u, dataV u = dataV s → trace u (commandWord 0x11 rd ra 0) = trace s (commandWord 0x11 rd ra 0)) ∧
    ∃ t, exec (.powv rd ra) s = .next t ∧ reduced (readF t rd) ∧
      val (readF t rd) = val (readF s ra) ^ (dataV s).toNat % Config.q ∧ writesOnlyF rd s t

/-- `INV Fd, Fa` (R190, R192): `A^(q-2)`, the inverse of a nonzero `A`, and 0 for 0; no status field is written; the
trace is the same in every state. -/
def Obligations.InvIsModularInverse : Prop :=
  ∀ (rd ra : FReg) (s : State), reduced (readF s ra) →
    decode (commandWord 0x12 rd ra 0) = .cmd (.inv rd ra) ∧
    (∀ u, trace u (commandWord 0x12 rd ra 0) = trace s (commandWord 0x12 rd ra 0)) ∧
    ∃ t, exec (.inv rd ra) s = .next t ∧ reduced (readF t rd) ∧
      val (readF t rd) = val (readF s ra) ^ (Config.q - 2) % Config.q ∧
      (val (readF s ra) ≠ 0 → val (readF t rd) * val (readF s ra) % Config.q = 1) ∧
      (val (readF s ra) = 0 → readF t rd = ⟨0, 0, 0, 0⟩) ∧ writesOnlyF rd s t

/-- `SQRT Fd, Fa` (R201, R204): it always completes; a root with `NONE = 0`, or `NONE = 1` for a non-residue with every
register left as it was. -/
def Obligations.SqrtGivesRootOrNoValue : Prop :=
  ∀ (rd ra : FReg) (s : State), reduced (readF s ra) →
    decode (commandWord 0x13 rd ra 0) = .cmd (.sqrt rd ra) ∧
    ∃ t, exec (.sqrt rd ra) s = .next t ∧ sameRegsBut rd s t ∧ sameData s t ∧ samePort s t ∧
      t.eqFlag = s.eqFlag ∧ t.ill = s.ill ∧ t.cause = s.cause ∧
      (val (readF s ra) = 0 → t.noneFlag = false ∧ readF t rd = ⟨0, 0, 0, 0⟩) ∧
      (isResidue (val (readF s ra)) → t.noneFlag = false ∧ reduced (readF t rd) ∧
        val (readF t rd) * val (readF t rd) % Config.q = val (readF s ra)) ∧
      (val (readF s ra) ≠ 0 → ¬ isResidue (val (readF s ra)) → t.noneFlag = true ∧ readF t rd = readF s rd)

/-- `EQ Fa, Fb` (R220): `STATUS.EQ` is the equality of the operands, raw and logical alike; nothing else changes. -/
def Obligations.EqComparesElements : Prop :=
  ∀ (ra rb : FReg) (s : State), reduced (readF s ra) → reduced (readF s rb) →
    decode (commandWord 0x18 0 ra rb) = .cmd (.eq ra rb) ∧
    ∃ t, exec (.eq ra rb) s = .next t ∧ (t.eqFlag = true ↔ readF s ra = readF s rb) ∧
      (t.eqFlag = true ↔ val (readF s ra) = val (readF s rb)) ∧
      t.noneFlag = s.noneFlag ∧ t.ill = s.ill ∧ t.cause = s.cause ∧ sameRegs s t ∧ sameData s t ∧ samePort s t

/-- `SEL Fd, Fa, Fb` (R221): `F[rb]` when `STATUS.EQ = 1`, `F[ra]` when it is 0. -/
def Obligations.SelPicksByEqFlag : Prop :=
  ∀ (rd ra rb : FReg) (s : State),
    decode (commandWord 0x19 rd ra rb) = .cmd (.sel rd ra rb) ∧
    ∃ t, exec (.sel rd ra rb) s = .next t ∧ (s.eqFlag = false → readF t rd = readF s ra) ∧
      (s.eqFlag = true → readF t rd = readF s rb) ∧
      (reduced (readF s ra) → reduced (readF s rb) → reduced (readF t rd)) ∧ writesOnlyF rd s t

/-- The round trips of R127, an inference the spec marks as its own: `ENC` then `DEC` gives the element back, `DEC` then `ENC` gives the bytes back, and
`FROMU64` agrees with `DEC` below `2^64`. -/
def Obligations.EncodeDecodeRoundTrips : Prop :=
  (∀ (rd ra : FReg) (s : State), reduced (readF s ra) →
    ∃ t u, exec (.enc ra) s = .next t ∧ exec (.dec rd) t = .next u ∧ readF u rd = readF s ra ∧ u.noneFlag = false) ∧
  (∀ (rd : FReg) (s : State), (dataV s).toNat < Config.q →
    ∃ t u, exec (.dec rd) s = .next t ∧ exec (.enc rd) t = .next u ∧ dataV u = dataV s) ∧
  (∀ (rd : FReg) (s : State), (dataV s).toNat < 2 ^ 64 →
    ∃ t u, exec (.fromu64 rd) s = .next t ∧ exec (.dec rd) s = .next u ∧ readF t rd = readF u rd ∧
      val (readF t rd) = (dataV s).toNat)

/-! The register window and the step. -/

/-- When the next host event is a write to `CMD`, the step is the meaning of the command it decodes to, or the record of
an illegal command, on the state with the event taken off; a value with a nonzero upper half is illegal with cause 1
(R54). -/
def Obligations.StepRunsTheDecodedCommand : Prop :=
  ∀ (s : State) (v : Word) (rest : List HostEvent), s.inbox = hostWr .cmd v :: rest →
    (∀ i, decode v = .cmd i → step s = exec i (setInbox s rest)) ∧
    (∀ c, decode v = .illegal c → step s = .next (raiseIllegal c (setInbox s rest))) ∧
    (2 ^ 32 ≤ v.toNat → decode v = .illegal .cmdHigh)

/-- A value written to `CMD` that decodes to `Illegal(cause)` sets `ILL` and `CAUSE` and changes nothing else; the block
goes on (R241). -/
def Obligations.IllegalCommandSetsIllAndCauseOnly : Prop :=
  ∀ (s : State) (v : Word) (c : Cause) (rest : List HostEvent),
    s.inbox = hostWr .cmd v :: rest → decode v = .illegal c →
    ∃ t, step s = .next t ∧ t.ill = true ∧ t.cause = causeCode c ∧ t.eqFlag = s.eqFlag ∧ t.noneFlag = s.noneFlag ∧
      sameRegs s t ∧ sameData s t ∧ t.inbox = rest ∧ t.replies = s.replies

/-- A host write to `DATAi` replaces `DATA[i]` and changes nothing else; a host read of it returns `DATA[i]` and changes
nothing (R53). -/
def Obligations.DataRegistersReadAndWrite : Prop :=
  ∀ (s : State) (i : Fin 4) (rest : List HostEvent),
    (∀ v, s.inbox = hostWr (.data i) v :: rest →
      ∃ t, step s = .next t ∧ readData t i = v ∧ (∀ j, j ≠ i → readData t j = readData s j) ∧ sameRegs s t ∧
        sameStatus s t ∧ t.inbox = rest ∧ t.replies = s.replies) ∧
    (s.inbox = hostRd (.data i) :: rest →
      ∃ t, step s = .next t ∧ t.replies = readData s i :: s.replies ∧ sameRegs s t ∧ sameData s t ∧ sameStatus s t ∧
        t.inbox = rest)

/-- A host read of `CMD` returns 0 and has no effect (R55). -/
def Obligations.CmdReadsAsZero : Prop :=
  ∀ (s : State) (rest : List HostEvent), s.inbox = hostRd .cmd :: rest →
    ∃ t, step s = .next t ∧ t.replies = 0 :: s.replies ∧ sameRegs s t ∧ sameData s t ∧ sameStatus s t ∧ t.inbox = rest

/-- A host read of `STATUS` returns the packed fields at the bits of R26 and has no effect; a host write to `STATUS` has
no effect (R56). -/
def Obligations.StatusReadsPackedAndIgnoresWrites : Prop :=
  ∀ (s : State) (rest : List HostEvent),
    (s.inbox = hostRd .status :: rest →
      ∃ t v, step s = .next t ∧ t.replies = v :: s.replies ∧ sameRegs s t ∧ sameData s t ∧ sameStatus s t ∧
        t.inbox = rest ∧
        v.toNat = s.eqFlag.toNat + 2 * s.noneFlag.toNat + 4 * s.ill.toNat + 16 * s.cause.toNat) ∧
    (∀ v, s.inbox = hostWr .status v :: rest →
      ∃ t, step s = .next t ∧ sameRegs s t ∧ sameData s t ∧ sameStatus s t ∧ t.inbox = rest ∧ t.replies = s.replies)

/-- An access that is not 8 bytes wide, not aligned or outside the window is refused, and a well-formed one never is
(R51). -/
def Obligations.OnlyWellFormedAccessesAreAccepted : Prop :=
  ∀ (s : State) (a : Access) (rest : List HostEvent), s.inbox = .access a :: rest →
    (a.wellFormed = false → ∃ r, step s = .refused r) ∧ (a.wellFormed = true → ∀ r, step s ≠ .refused r)

/-- The window map of R50, at byte addresses `BASE + offset`: `DATAi` at `8 * i`, `CMD` at `0x20`, `STATUS` at `0x28`,
whatever `BASE` is. -/
def Obligations.WindowMapHoldsForEveryBase : Prop :=
  ∀ (k : AccessKind) (s : State),
    (∀ i : Fin 4, acceptAccess (accessAt k (Config.base + 8 * i.val) 8) s = accessReg (.data i) k s) ∧
    acceptAccess (accessAt k (Config.base + 0x20) 8) s = accessReg .cmd k s ∧
    acceptAccess (accessAt k (Config.base + 0x28) 8) s = accessReg .status k s ∧
    (∀ off, 0x30 ≤ off → off % 8 = 0 → acceptAccess (accessAt k (Config.base + off) 8) s = .refused .accessOutsideWindow)

/-- Without a host event nothing changes (R252). That an empty inbox stands for "no host access" is the model's choice
(notes/assumptions/2.md). -/
def Obligations.BlockIsIdleWithoutHostEvent : Prop := ∀ s : State, s.inbox = [] → step s = .next s

/-- One step takes exactly the oldest host event, and returns at most one value to the host (R62). The inbox and the
replies are the model's own fields, its choice of how the host's side is held (notes/assumptions/2.md, 3.md); that the
accesses waiting behind a reset stay in the inbox is the model's choice too, and no rule's (notes/assumptions/5.md). -/
def Obligations.StepAcceptsEventsInOrder : Prop :=
  ∀ (s t : State) (e : HostEvent) (rest : List HostEvent), s.inbox = e :: rest → step s = .next t →
    t.inbox = rest ∧ (t.replies = s.replies ∨ ∃ (r : WinReg), e = hostRd r ∧ t.replies = memRead s r :: s.replies)

/-- A reset puts every piece of architectural state into the reset values of R37, whatever the state was (R270). The last
two clauses, that the accesses waiting behind the reset and the replies already given stay, are the model's choice and no
rule's (notes/assumptions/5.md). -/
def Obligations.ResetEventClearsTheBlock : Prop :=
  ∀ (s : State) (rest : List HostEvent), s.inbox = .reset :: rest →
    ∃ t, step s = .next t ∧ (∀ j, readF t j = ⟨0, 0, 0, 0⟩) ∧ (∀ i, readData t i = 0) ∧ t.eqFlag = false ∧
      t.noneFlag = false ∧ t.ill = false ∧ t.cause = 0 ∧ t.inbox = rest ∧ t.replies = s.replies

/-- The state after reset: every element register 0, every data word 0, `STATUS = 0` (R37). -/
def Obligations.ResetStateIsAllZero : Prop :=
  (∀ j, readF State.reset j = ⟨0, 0, 0, 0⟩) ∧ (∀ i, readData State.reset i = 0) ∧ packStatus State.reset = 0 ∧
  State.reset.eqFlag = false ∧ State.reset.noneFlag = false ∧ State.reset.ill = false ∧ State.reset.cause = 0

/-- The 32-byte view of the data buffer: `DATAV` is the little-endian sum of `DATAB[0..31]` (R25, R57). -/
def Obligations.DataBufferIsLittleEndianBytes : Prop :=
  ∀ s : State, (dataV s).toNat = ∑ j : Fin 32, (dataByte s j).toNat * 256 ^ j.val

/-- Four host writes of the little-endian words of 32 bytes deliver byte `j` to `DATAB[j]` (R57). -/
def Obligations.HostBytesArriveInOrder : Prop :=
  ∀ (b : Vector (BitVec 8) 32) (s : State) (rest : List HostEvent),
    s.inbox =
      hostWr (.data 0) (wordOfBytes b[0] b[1] b[2] b[3] b[4] b[5] b[6] b[7]) ::
      hostWr (.data 1) (wordOfBytes b[8] b[9] b[10] b[11] b[12] b[13] b[14] b[15]) ::
      hostWr (.data 2) (wordOfBytes b[16] b[17] b[18] b[19] b[20] b[21] b[22] b[23]) ::
      hostWr (.data 3) (wordOfBytes b[24] b[25] b[26] b[27] b[28] b[29] b[30] b[31]) :: rest →
    ∃ t, core.run 4 s = .next t ∧ (∀ j : Fin 32, dataByte t j = b[j]) ∧ t.inbox = rest

/-! Whole-machine rules. -/

/-- The reset state meets the invariant (R22, R37). -/
def Obligations.ResetMeetsInvariant : Prop := State.Inv State.reset

/-- Every step keeps the invariant: element registers reduced, `CAUSE` one of 0 to 4 and 0 exactly while `ILL` is 0
(R26, R242; R22's `v < q` is an inference the spec marks as its own). -/
def Obligations.StepKeepsInvariant : Prop := ∀ s t : State, s.Inv → step s = .next t → t.Inv

/-- `ILL` and `CAUSE` change only at a reset or when an illegal command is written to `CMD`, and `ILL` stays 1 until
reset (R29). -/
def Obligations.IllIsStickyAndWrittenByIllegalCommandsOnly : Prop :=
  ∀ s t : State, step s = .next t → (∀ rest, s.inbox ≠ .reset :: rest) →
    (s.ill = true → t.ill = true) ∧
    ((t.ill ≠ s.ill ∨ t.cause ≠ s.cause) → ∃ v c rest, s.inbox = hostWr .cmd v :: rest ∧ decode v = .illegal c)

/-- `STATUS.EQ` is written only by `EQ` and read only by `SEL` (R27): another command leaves it, and gives the same
result whatever it holds. -/
def Obligations.EqFlagIsPrivateToEqAndSel : Prop :=
  (∀ (i : Instr) (s t : State), (∀ ra rb, i ≠ .eq ra rb) → exec i s = .next t → t.eqFlag = s.eqFlag) ∧
  (∀ (i : Instr) (s t : State) (b : Bool), (∀ ra rb, i ≠ .eq ra rb) → (∀ rd ra rb, i ≠ .sel rd ra rb) →
    exec i s = .next t → exec i (setEq s b) = .next (setEq t b)) ∧
  (∀ (ra rb : FReg) (s : State) (b : Bool), exec (.eq ra rb) (setEq s b) = exec (.eq ra rb) s) ∧
  (∀ (s : State) (c : Cause), (raiseIllegal c s).eqFlag = s.eqFlag)

/-- `STATUS.NONE` is written only by `DEC` and `SQRT` (R28): each writes 1 when it has no value and 0 when it succeeds,
whatever it held. -/
def Obligations.NoneFlagIsWrittenByDecAndSqrtOnly : Prop :=
  (∀ (i : Instr) (s t : State), (∀ rd, i ≠ .dec rd) → (∀ rd ra, i ≠ .sqrt rd ra) → exec i s = .next t →
    t.noneFlag = s.noneFlag) ∧
  (∀ (rd ra : FReg) (s : State) (b : Bool), exec (.dec rd) (setNone s b) = exec (.dec rd) s ∧
    exec (.sqrt rd ra) (setNone s b) = exec (.sqrt rd ra) s) ∧
  (∀ (rd : FReg) (s t : State), exec (.dec rd) s = .next t → (t.noneFlag = true ↔ Config.q ≤ (dataV s).toNat)) ∧
  (∀ (rd ra : FReg) (s t : State), exec (.sqrt rd ra) s = .next t →
    (t.noneFlag = true ↔ sqrtVt (readF s ra) = .noValue)) ∧
  (∀ (s : State) (c : Cause), (raiseIllegal c s).noneFlag = s.noneFlag)

/-- Only commands reach the element registers (R23), in both halves. Writing: a step that changes one executes a legal
command written to `CMD`, or is a reset. Reading: on every event but a write to `CMD`, two states that differ in the
element registers alone give the host the same replies, and the same data words and `STATUS`. -/
def Obligations.OnlyCommandsReachElementRegisters : Prop :=
  (∀ s t : State, step s = .next t → ¬ sameRegs s t →
    (∃ v i rest, s.inbox = hostWr .cmd v :: rest ∧ decode v = .cmd i) ∨ (∃ rest, s.inbox = .reset :: rest)) ∧
  (∀ (s t : State) (regs : Vector U256 16), (∀ v rest, s.inbox ≠ hostWr .cmd v :: rest) → step s = .next t →
    ∃ u, step { s with f := regs } = .next u ∧ u.replies = t.replies ∧ sameData t u ∧ sameStatus t u ∧
      u.inbox = t.inbox)

/-- Two masters' streams of well-formed accesses, interleaved in any order that respects each master's own, are accepted
to the end from every state that meets the invariant: "no execution of the block hangs", an inference R282 marks as its
own, over the interleavings of R63. A stream may hold resets; that the accesses waiting behind one are still accepted is
the model's choice and no rule's (notes/assumptions/5.md), as is the inbox itself (notes/assumptions/2.md). -/
def Obligations.EveryInterleavingRunsToTheEnd : Prop :=
  ∀ (xs ys zs : List HostEvent) (s : State), Interleaves xs ys zs →
    (∀ e ∈ xs, e.wellFormed = true) → (∀ e ∈ ys, e.wellFormed = true) → s.Inv → s.inbox = zs →
    ∃ t, core.run zs.length s = .next t ∧ t.inbox = [] ∧ t.Inv

/-! Operation traces. -/

/-- The engines with a log compute what the engines of the step function compute, so that a trace is the trace of the
command's own computation (R275). -/
def Obligations.TracedEnginesComputeTheSame : Prop :=
  (∀ b e, (powCtLog b e).1 = powCt b e) ∧ (∀ b e, (powVtLog b e).1 = powVt b e) ∧
  (∀ a, (sqrtVtLog a).1 = sqrtVt a) ∧ (∀ x, (ltModulusLog x).1 = ltModulus x)

/-- The constant-time contract (R275): the trace of an illegal command and of a command that is not variable-time is a
function of the command word alone; that of `POWV` and `DEC` depends on `DATAV` only beside it, that of `SQRT` on
`F[ra]` only. -/
def Obligations.ConstantTimeContract : Prop :=
  ∀ (v : Word) (s t : State),
    (∀ c, decode v = .illegal c → trace s v = trace t v) ∧
    (∀ i, decode v = .cmd i → (variableTime i = true → agreeOnPublic i s t) → trace s v = trace t v)

/-- The trace of `POWC`: 256 times `SQR`, `MUL`, `SEL` for every base and exponent (R276). -/
def Obligations.PowcTraceIsFixed : Prop :=
  ∀ (rd ra : FReg) (s : State),
    trace s (commandWord 0x10 rd ra 0) = (List.replicate 256 [TraceOp.sqr, .mul, .sel]).flatten

/-- The trace of `POWV`: for each bit from 255 down to 0, `SQR`, and `MUL` when the bit is 1: 256 squarings and
`popcount(e)` multiplications, at most 256 (R277). -/
def Obligations.PowvTraceFollowsExponentBits : Prop :=
  ∀ (rd ra : FReg) (s : State),
    trace s (commandWord 0x11 rd ra 0) = powBitsTrace (dataV s) ∧
    (trace s (commandWord 0x11 rd ra 0)).count .sqr = 256 ∧
    (trace s (commandWord 0x11 rd ra 0)).count .mul = ((List.range 256).filter (fun i => (dataV s).bit i)).length ∧
    (trace s (commandWord 0x11 rd ra 0)).count .mul ≤ 256

/-- The trace of `INV` is one fixed sequence, with the default schedule that of `POWC` (R278; the schedule is the
spec's default, notes/assumptions/6.md). -/
def Obligations.InvTraceIsFixed : Prop :=
  ∀ (rd ra : FReg) (s : State),
    trace s (commandWord 0x12 rd ra 0) = scheduleTrace Config.invSchedule ∧
    trace s (commandWord 0x12 rd ra 0) = (List.replicate 256 [TraceOp.sqr, .mul, .sel]).flatten

/-- The trace of `DEC`: limb comparisons from limb 3 down to the first that differs, all four when `x = q`, then `MUL`
when the input is canonical (R280). -/
def Obligations.DecTraceStopsAtFirstDifference : Prop :=
  ∀ (rd : FReg) (s : State),
    let x := dataV s
    let m := Config.modulus
    let tail := if x.toNat < Config.q then [TraceOp.mul] else []
    let tr := trace s (commandWord 0x04 rd 0 0)
    (x.l3 ≠ m.l3 → tr = .cmpl 3 :: tail) ∧
    (x.l3 = m.l3 → x.l2 ≠ m.l2 → tr = .cmpl 3 :: .cmpl 2 :: tail) ∧
    (x.l3 = m.l3 → x.l2 = m.l2 → x.l1 ≠ m.l1 → tr = .cmpl 3 :: .cmpl 2 :: .cmpl 1 :: tail) ∧
    (x.l3 = m.l3 → x.l2 = m.l2 → x.l1 = m.l1 → tr = .cmpl 3 :: .cmpl 2 :: .cmpl 1 :: .cmpl 0 :: tail)

/-- The trace of `SQRT` (R279, an inference the spec marks as its own): the `POWV` trace of `E_LEG` and `CEQ`; for a nonzero operand one more `CEQ`; for a
residue then the traces of `E_TP1H` and `E_T`, the rounds of the loop for successive orders `m`, and a last `CEQ`. The
orders strictly fall from 32, and there are at most 31 rounds (R202). -/
def Obligations.SqrtTraceFollowsTheRounds : Prop :=
  ∀ (rd ra : FReg) (s : State), reduced (readF s ra) →
    (val (readF s ra) = 0 →
      trace s (commandWord 0x13 rd ra 0) = powBitsTrace Config.expLeg ++ [.ceq]) ∧
    (val (readF s ra) ≠ 0 → ¬ isResidue (val (readF s ra)) →
      trace s (commandWord 0x13 rd ra 0) = powBitsTrace Config.expLeg ++ [.ceq, .ceq]) ∧
    (isResidue (val (readF s ra)) →
      ∃ ms : List Nat, (32 :: ms).Pairwise (· > ·) ∧ (∀ m ∈ ms, 1 ≤ m) ∧ ms.length ≤ 31 ∧
        trace s (commandWord 0x13 rd ra 0) =
          List.flatten [powBitsTrace Config.expLeg, [.ceq, .ceq], powBitsTrace Config.expTp1h,
            powBitsTrace Config.expT, (List.zipWith sqrtRoundTrace (32 :: ms) ms).flatten, [.ceq]])

/-- The other traces: empty for `ZERO`, `ONE` and illegal commands, one operation for the rest (R281). -/
def Obligations.OtherTracesAreSingleOperations : Prop :=
  ∀ (rd ra rb : FReg) (s : State) (v : Word),
    (∀ c, decode v = .illegal c → trace s v = []) ∧
    trace s (commandWord 0x01 rd 0 0) = [] ∧ trace s (commandWord 0x02 rd 0 0) = [] ∧
    trace s (commandWord 0x03 rd 0 0) = [.mul] ∧ trace s (commandWord 0x05 0 ra 0) = [.redc] ∧
    trace s (commandWord 0x08 rd ra 0) = [.negm] ∧ trace s (commandWord 0x09 rd ra rb) = [.addm] ∧
    trace s (commandWord 0x0A rd ra rb) = [.subm] ∧ trace s (commandWord 0x0B rd ra rb) = [.mul] ∧
    trace s (commandWord 0x0C rd ra 0) = [.sqr] ∧ trace s (commandWord 0x18 0 ra rb) = [.ceq] ∧
    trace s (commandWord 0x19 rd ra rb) = [.sel]
end

