-- ==== Sys2Proof/Laws/Decode.lean ====
section
/-! SUPPORT. Small lemmas of the decoder's tables (spec/30_encoding.md R73). -/

namespace Sys2Proof

/-- Every listed opcode is found by its number (R73). -/
@[simp] theorem opcodeOf_opcodeNumber (o : Opcode) : opcodeOf (opcodeNumber o) = some o := by
  cases o <;> decide

/-- An opcode that is found has the number looked for (R73, R75). -/
theorem opcodeNumber_of_opcodeOf {op : BitVec 8} {o : Opcode} (h : opcodeOf op = some o) : opcodeNumber o = op := by
  have := List.find?_some h
  simpa using this

theorem mem_allOpcodes (o : Opcode) : o ∈ allOpcodes := by cases o <;> decide

/-- A value with a nonzero upper half is illegal with cause 1 (R79). -/
theorem decode_high {v : Word} (h : cmdHigh v ≠ 0) : decode v = .illegal .cmdHigh := by
  rw [decode, if_pos h]

/-- A command is rebuilt from its own opcode and fields. -/
@[simp] theorem buildInstr_fields (i : Instr) :
    buildInstr (opcodeOfInstr i) (rdField i) (raField i) (rbField i) = i := by
  cases i <;> rfl

@[simp] theorem opcodeOfInstr_buildInstr (o : Opcode) (rd ra rb : FReg) :
    opcodeOfInstr (buildInstr o rd ra rb) = o := by
  cases o <;> rfl

/-- A field that the opcode does not use is 0 in a command (R74). -/
theorem rdField_unused {i : Instr} (h : usesRd (opcodeOfInstr i) = false) : rdField i = 0 := by
  cases i <;> first | rfl | simp [usesRd, opcodeOfInstr] at h

theorem raField_unused {i : Instr} (h : usesRa (opcodeOfInstr i) = false) : raField i = 0 := by
  cases i <;> first | rfl | simp [usesRa, opcodeOfInstr] at h

theorem rbField_unused {i : Instr} (h : usesRb (opcodeOfInstr i) = false) : rbField i = 0 := by
  cases i <;> first | rfl | simp [usesRb, opcodeOfInstr] at h

/-! The fields of a packed word (R70, R71). -/

theorem fieldOp_encode (i : Instr) : fieldOp (encode i) = opcodeNumber (opcodeOfInstr i) := by
  simp only [fieldOp, encode, encodeWord, packFields]
  apply BitVec.eq_of_toNat_eq
  simp only [BitVec.extractLsb'_toNat, BitVec.toNat_setWidth, BitVec.toNat_append, Nat.shiftRight_zero]
  have h := (opcodeNumber (opcodeOfInstr i)).isLt
  generalize (opcodeNumber (opcodeOfInstr i)).toNat = n at *
  rw [Nat.shiftLeft_eq, Nat.mul_comm _ (2 ^ 8), ← Nat.two_pow_add_eq_or_of_lt h]
  omega

/-- A packed word as the sum of its fields, each at its column (R70). -/
theorem packFields_toNat (op : BitVec 8) (rd ra rb : FReg) :
    (packFields op rd ra rb).toNat = op.toNat + rd.val * 2 ^ 8 + ra.val * 2 ^ 12 + rb.val * 2 ^ 16 := by
  have h0 := op.isLt
  have hd : (BitVec.ofFin (w := 4) rd).toNat = rd.val := rfl
  have ha : (BitVec.ofFin (w := 4) ra).toNat = ra.val := rfl
  have hb : (BitVec.ofFin (w := 4) rb).toNat = rb.val := rfl
  have h1 := rd.isLt
  have h2 := ra.isLt
  have hz : BitVec.toNat (0 : BitVec 12) = 0 := rfl
  simp only [packFields, BitVec.toNat_append, hd, ha, hb, hz, Nat.zero_shiftLeft, Nat.zero_or]
  generalize op.toNat = n at *
  rw [Nat.shiftLeft_eq, Nat.shiftLeft_eq, Nat.shiftLeft_eq, Nat.mul_comm _ (2 ^ 8), ← Nat.two_pow_add_eq_or_of_lt h0,
    Nat.mul_comm _ (2 ^ 4), ← Nat.two_pow_add_eq_or_of_lt (i := 4) (by omega), Nat.mul_comm _ (2 ^ 4),
    ← Nat.two_pow_add_eq_or_of_lt (i := 4) (by omega)]
  omega

end Sys2Proof
end

