-- ==== Sys2Proof/Laws/Limb.lean ====
section
/-! SUPPORT. What the limb primitives and the carry propagator return, as exact integers (spec/40_limb_carry.md R100 to
R106, R108). -/

namespace Sys2Proof

/-- A 256-bit value is below `2^256`. -/
theorem U256.toNat_lt (v : U256) : v.toNat < 2 ^ 256 := by
  have h0 := v.l0.isLt; have h1 := v.l1.isLt; have h2 := v.l2.isLt; have h3 := v.l3.isLt
  simp only [U256.toNat]; omega

theorem U256.toNat_inj {v w : U256} (h : v.toNat = w.toNat) : v = w := by
  obtain ⟨a0, a1, a2, a3⟩ := v
  obtain ⟨b0, b1, b2, b3⟩ := w
  have := a0.isLt; have := a1.isLt; have := a2.isLt; have := a3.isLt
  have := b0.isLt; have := b1.isLt; have := b2.isLt; have := b3.isLt
  simp only [U256.toNat] at h
  simp only [U256.mk.injEq, ← BitVec.toNat_inj]
  omega

theorem U256.toNat_ofNat (n : Nat) : (U256.ofNat n).toNat = n % 2 ^ 256 := by
  simp only [U256.toNat, U256.ofNat, BitVec.toNat_ofNat]; omega

@[simp] theorem U256.ofNat_toNat (v : U256) : U256.ofNat v.toNat = v := by
  apply U256.toNat_inj
  rw [U256.toNat_ofNat, Nat.mod_eq_of_lt v.toNat_lt]

theorem U256.toNat_ofNat_of_lt {n : Nat} (h : n < 2 ^ 256) : (U256.ofNat n).toNat = n := by
  rw [U256.toNat_ofNat, Nat.mod_eq_of_lt h]

theorem U512.toNat_lt (v : U512) : v.toNat < 2 ^ 512 := by
  have h0 := v.r0.isLt; have h1 := v.r1.isLt; have h2 := v.r2.isLt; have h3 := v.r3.isLt
  have h4 := v.r4.isLt; have h5 := v.r5.isLt; have h6 := v.r6.isLt; have h7 := v.r7.isLt
  simp only [U512.toNat]; omega

theorem U512.toNat_inj {v w : U512} (h : v.toNat = w.toNat) : v = w := by
  obtain ⟨a0, a1, a2, a3, a4, a5, a6, a7⟩ := v
  obtain ⟨b0, b1, b2, b3, b4, b5, b6, b7⟩ := w
  have := a0.isLt; have := a1.isLt; have := a2.isLt; have := a3.isLt
  have := a4.isLt; have := a5.isLt; have := a6.isLt; have := a7.isLt
  have := b0.isLt; have := b1.isLt; have := b2.isLt; have := b3.isLt
  have := b4.isLt; have := b5.isLt; have := b6.isLt; have := b7.isLt
  simp only [U512.toNat] at h
  simp only [U512.mk.injEq, ← BitVec.toNat_inj]
  omega

end Sys2Proof

namespace Sys2Proof.Machine

theorem zero_toNat : (0 : Word).toNat = 0 := rfl

/-- The two 64-bit halves of a 128-bit intermediate. -/
theorem halves_toNat (s : BitVec 128) :
    (s.extractLsb' 0 64).toNat + (s.extractLsb' 64 64).toNat * 2 ^ 64 = s.toNat := by
  have := s.isLt
  simp only [BitVec.extractLsb'_toNat, Nat.shiftRight_eq_div_pow]
  omega

/-- `adc` gives the exact sum (R100). -/
theorem adc_toNat (a b c : Word) :
    (adc a b c).1.toNat + (adc a b c).2.toNat * 2 ^ 64 = a.toNat + b.toNat + c.toNat := by
  have := a.isLt; have := b.isLt; have := c.isLt
  simp only [adc, halves_toNat, BitVec.toNat_add, BitVec.toNat_setWidth]
  omega

/-- `mac` gives the exact value of `a + b*c + carry` (R102: "no bit is lost"). -/
theorem mac_toNat (a b c carry : Word) :
    (mac a b c carry).1.toNat + (mac a b c carry).2.toNat * 2 ^ 64 = a.toNat + b.toNat * c.toNat + carry.toNat := by
  have ha := a.isLt; have hb := b.isLt; have hc := c.isLt; have hk := carry.isLt
  have hbc : b.toNat * c.toNat ≤ (2 ^ 64 - 1) * (2 ^ 64 - 1) := Nat.mul_le_mul (by omega) (by omega)
  simp only [mac, halves_toNat, BitVec.toNat_add, BitVec.toNat_mul, BitVec.toNat_setWidth]
  rw [Nat.mod_eq_of_lt (a := a.toNat) (by omega), Nat.mod_eq_of_lt (a := b.toNat) (by omega),
    Nat.mod_eq_of_lt (a := c.toNat) (by omega), Nat.mod_eq_of_lt (a := carry.toNat) (by omega)]
  generalize b.toNat * c.toNat = p at *
  omega

/-- `sbb` gives the exact difference, with the borrow out as a mask (R101); `bm` is the borrow in. -/
theorem sbb_spec (a b bm : Word) :
    ((sbb a b bm).2 = limbMax ∧ (sbb a b bm).1.toNat + b.toNat + (bm.getLsbD 63).toNat = a.toNat + 2 ^ 64) ∨
      ((sbb a b bm).2 = 0 ∧ (sbb a b bm).1.toNat + b.toNat + (bm.getLsbD 63).toNat = a.toNat) := by
  have ha := a.isLt; have hb := b.isLt
  have hk : (bm.getLsbD 63).toNat ≤ 1 := Bool.toNat_le _
  unfold sbb
  generalize (bm.getLsbD 63).toNat = k at *
  dsimp only
  split
  · left; refine ⟨rfl, ?_⟩; simp only [BitVec.toNat_ofNat]; omega
  · right; refine ⟨rfl, ?_⟩; simp only [BitVec.toNat_ofNat]; omega

@[simp] theorem mask_true : mask true = limbMax := by decide

@[simp] theorem mask_false : mask false = 0 := by decide

@[simp] theorem maskLimbs_limbMax (x : U256) : maskLimbs x limbMax = x := by
  have h (w : Word) : w &&& limbMax = w := BitVec.and_allOnes
  simp only [maskLimbs, h]

@[simp] theorem maskLimbs_zero (x : U256) : maskLimbs x 0 = U256.zero := by
  simp [maskLimbs]

/-- `add4` gives the exact sum of its operands (R104). -/
theorem add4_toNat (a b : U256) : (add4 a b).1.toNat + (add4 a b).2.toNat * 2 ^ 256 = a.toNat + b.toNat := by
  have h0 := adc_toNat a.l0 b.l0 0
  have h1 := adc_toNat a.l1 b.l1 (adc a.l0 b.l0 0).2
  have h2 := adc_toNat a.l2 b.l2 (adc a.l1 b.l1 (adc a.l0 b.l0 0).2).2
  have h3 := adc_toNat a.l3 b.l3 (adc a.l2 b.l2 (adc a.l1 b.l1 (adc a.l0 b.l0 0).2).2).2
  rw [zero_toNat] at h0
  simp only [add4, U256.toNat]
  omega

/-- `add4` is addition modulo `2^256` (R104). -/
theorem add4_mod (a b : U256) : (add4 a b).1.toNat = (a.toNat + b.toNat) % 2 ^ 256 := by
  have h := add4_toNat a b
  have := (add4 a b).1.toNat_lt
  omega

/-- `sub4` gives the exact difference, with the borrow out as a mask that is all-ones exactly when `a < b` (R105). -/
theorem sub4_spec (a b : U256) :
    ((sub4 a b).2 = limbMax ∧ a.toNat < b.toNat ∧ (sub4 a b).1.toNat + b.toNat = a.toNat + 2 ^ 256) ∨
      ((sub4 a b).2 = 0 ∧ b.toNat ≤ a.toNat ∧ (sub4 a b).1.toNat + b.toNat = a.toNat) := by
  have bit1 : (limbMax.getLsbD 63).toNat = 1 := by decide
  have bit0 : ((0 : Word).getLsbD 63).toNat = 0 := by decide
  have hlt := (sub4 a b).1.toNat_lt
  have ha := a.toNat_lt
  have hb := b.toNat_lt
  have h0 := sbb_spec a.l0 b.l0 0
  have h1 := sbb_spec a.l1 b.l1 (sbb a.l0 b.l0 0).2
  have h2 := sbb_spec a.l2 b.l2 (sbb a.l1 b.l1 (sbb a.l0 b.l0 0).2).2
  have h3 := sbb_spec a.l3 b.l3 (sbb a.l2 b.l2 (sbb a.l1 b.l1 (sbb a.l0 b.l0 0).2).2).2
  simp only [sub4, U256.toNat] at *
  rw [bit0] at h0
  rcases h0 with ⟨e0, h0⟩ | ⟨e0, h0⟩ <;> rw [e0] at h1 h2 h3 ⊢ <;>
    rcases h1 with ⟨e1, h1⟩ | ⟨e1, h1⟩ <;> rw [e1] at h2 h3 ⊢ <;>
    rcases h2 with ⟨e2, h2⟩ | ⟨e2, h2⟩ <;> rw [e2] at h3 ⊢ <;>
    rcases h3 with ⟨e3, h3⟩ | ⟨e3, h3⟩ <;> rw [e3] <;>
    simp only [bit0, bit1] at h1 h2 h3
  all_goals first
    | (left; refine ⟨rfl, ?_, ?_⟩ <;> omega)
    | (right; refine ⟨rfl, ?_, ?_⟩ <;> omega)

/-- One row of the schoolbook product adds `x * b` to its accumulator limbs exactly (R106). -/
theorem mulRow_toNat (r0 r1 r2 r3 x : Word) (b : U256) :
    let o := mulRow r0 r1 r2 r3 x b
    o.1.toNat + o.2.1.toNat * 2 ^ 64 + o.2.2.1.toNat * 2 ^ 128 + o.2.2.2.1.toNat * 2 ^ 192 +
        o.2.2.2.2.toNat * 2 ^ 256 =
      r0.toNat + r1.toNat * 2 ^ 64 + r2.toNat * 2 ^ 128 + r3.toNat * 2 ^ 192 + x.toNat * b.toNat := by
  have h0 := mac_toNat r0 x b.l0 0
  have h1 := mac_toNat r1 x b.l1 (mac r0 x b.l0 0).2
  have h2 := mac_toNat r2 x b.l2 (mac r1 x b.l1 (mac r0 x b.l0 0).2).2
  have h3 := mac_toNat r3 x b.l3 (mac r2 x b.l2 (mac r1 x b.l1 (mac r0 x b.l0 0).2).2).2
  rw [zero_toNat] at h0
  simp only [mulRow, U256.toNat, Nat.mul_add, ← Nat.mul_assoc]
  omega

/-- `mul4x4` gives the exact product (R106: "No bit is dropped"). -/
theorem mul4x4_toNat (a b : U256) : (mul4x4 a b).toNat = a.toNat * b.toNat := by
  have h0 := mulRow_toNat 0 0 0 0 a.l0 b
  simp only [mul4x4, U512.toNat]
  generalize mulRow 0 0 0 0 a.l0 b = p0 at h0 ⊢
  obtain ⟨r0, r1, r2, r3, r4⟩ := p0
  dsimp only at h0 ⊢
  have h1 := mulRow_toNat r1 r2 r3 r4 a.l1 b
  generalize mulRow r1 r2 r3 r4 a.l1 b = p1 at h1 ⊢
  obtain ⟨s1, s2, s3, s4, s5⟩ := p1
  dsimp only at h1 ⊢
  have h2 := mulRow_toNat s2 s3 s4 s5 a.l2 b
  generalize mulRow s2 s3 s4 s5 a.l2 b = p2 at h2 ⊢
  obtain ⟨t2, t3, t4, t5, t6⟩ := p2
  dsimp only at h2 ⊢
  have h3 := mulRow_toNat t3 t4 t5 t6 a.l3 b
  generalize mulRow t3 t4 t5 t6 a.l3 b = p3 at h3 ⊢
  obtain ⟨u3, u4, u5, u6, u7⟩ := p3
  dsimp only at h3 ⊢
  have hb : a.toNat * b.toNat = a.l0.toNat * b.toNat + a.l1.toNat * b.toNat * 2 ^ 64 +
      a.l2.toNat * b.toNat * 2 ^ 128 + a.l3.toNat * b.toNat * 2 ^ 192 := by
    simp only [U256.toNat, Nat.add_mul, Nat.mul_right_comm _ _ (_ + _ : Nat)]
  rw [hb]
  rw [zero_toNat] at h0
  omega

end Sys2Proof.Machine
end

