-- ==== Sys2Proof/Laws/Mont.lean ====
section
/-! SUPPORT. What the Montgomery datapath returns, as exact integers (spec/42_ring_ops.md R140 to R146;
spec/41_representation.md R123, R125; spec/46_ct_primitives.md R222, R223). -/

namespace Sys2Proof.Machine

theorem modulus_toNat : Config.modulus.toNat = Config.q := by decide

theorem rOne_toNat : Config.rOne.toNat = Config.radix % Config.q := by decide

/-- The numeral of `q`, for linear arithmetic. -/
theorem q_eq : Config.q = 0x73eda753299d7d483339d80809a1d80553bda402fffe5bfeffffffff00000001 := rfl

theorem r2_toNat : Config.r2.toNat = Config.radix * Config.radix % Config.q := by decide

/-- `RADIX` and `radixInv` are inverse modulo `q` (spec/00_scope.md R12). -/
theorem radix_mul_radixInv : Config.radix * radixInv % Config.q = 1 := by decide

/-- The masked modulus of `sub_mod`: `q` under an all-ones mask, 0 under an all-zeros mask (R103). -/
theorem add4_maskLimbs_limbMax (d : U256) :
    (add4 d (maskLimbs Config.modulus limbMax)).1.toNat = (d.toNat + Config.q) % 2 ^ 256 := by
  rw [add4_mod, maskLimbs_limbMax, modulus_toNat]

theorem add4_maskLimbs_zero (d : U256) : (add4 d (maskLimbs Config.modulus 0)).1.toNat = d.toNat := by
  rw [add4_mod, maskLimbs_zero, show U256.zero.toNat = 0 from rfl, Nat.add_zero, Nat.mod_eq_of_lt d.toNat_lt]

/-- `sub_mod` as integers: the difference, with `q` added back (modulo `2^256`) when it borrowed (R144). -/
theorem subMod_toNat (a b : U256) :
    (subMod a b).toNat =
      if a.toNat < b.toNat then (a.toNat + 2 ^ 256 - b.toNat + Config.q) % 2 ^ 256 else a.toNat - b.toNat := by
  unfold subMod
  rcases sub4_spec a b with ⟨e, hlt, h⟩ | ⟨e, hle, h⟩
  · simp only [e, add4_maskLimbs_limbMax, hlt, if_true]
    congr 1; omega
  · simp only [e, add4_maskLimbs_zero, if_neg (Nat.not_lt.mpr hle)]
    omega

/-- `sub_mod` on reduced operands is subtraction modulo `q` (R144). -/
theorem subMod_reduced {a b : U256} (ha : reduced a) (hb : reduced b) :
    (subMod a b).toNat = (a.toNat + Config.q - b.toNat) % Config.q := by
  rw [subMod_toNat]
  unfold reduced at ha hb
  simp only [q_eq] at *
  split <;> omega

/-- `sub_mod(a, MODULUS)` is the final conditional subtraction: `a mod q` for `a < 2q` (R144). -/
theorem subMod_modulus {a : U256} (ha : a.toNat < 2 * Config.q) :
    (subMod a Config.modulus).toNat = a.toNat % Config.q := by
  rw [subMod_toNat, modulus_toNat]
  by_cases h : a.toNat < Config.q
  · rw [if_pos h]; simp only [q_eq] at *; omega
  · rw [if_neg h]; simp only [q_eq] at *; omega

/-- `add_mod` on reduced operands is addition modulo `q` (R145). -/
theorem addMod_reduced {a b : U256} (ha : reduced a) (hb : reduced b) :
    (addMod a b).toNat = (a.toNat + b.toNat) % Config.q := by
  unfold reduced at ha hb
  have hq := q_eq
  have hs : (add4 a b).1.toNat = a.toNat + b.toNat := by
    rw [add4_mod, Nat.mod_eq_of_lt (by omega)]
  have h := subMod_modulus (a := (add4 a b).1) (by omega)
  unfold addMod
  dsimp only
  rw [h, hs]

/-- The OR-reduction of the limbs is nonzero exactly when the value is (R146). -/
theorem or_limbs_eq_zero (a : U256) : a.l0 ||| a.l1 ||| a.l2 ||| a.l3 = 0 ↔ a = U256.zero := by
  obtain ⟨a0, a1, a2, a3⟩ := a
  simp [BitVec.or_eq_zero_iff, and_assoc]

/-- `neg_mod` on a reduced operand is negation modulo `q` (R146). -/
theorem negMod_reduced {a : U256} (ha : reduced a) : (negMod a).toNat = (Config.q - a.toNat) % Config.q := by
  unfold reduced at ha
  unfold negMod
  by_cases h : a = U256.zero
  · have : (a.l0 ||| a.l1 ||| a.l2 ||| a.l3 != 0) = false := by simpa using (or_limbs_eq_zero a).mpr h
    simp only [this, mask_false, maskLimbs_zero]
    subst h; decide
  · have hn : a.toNat ≠ 0 := fun e => h (U256.toNat_inj (e.trans rfl))
    have : (a.l0 ||| a.l1 ||| a.l2 ||| a.l3 != 0) = true := by
      simpa using fun e => h ((or_limbs_eq_zero a).mp e)
    simp only [this, mask_true, maskLimbs_limbMax]
    rcases sub4_spec Config.modulus a with ⟨_, hlt, _⟩ | ⟨_, _, he⟩
    · rw [modulus_toNat] at hlt; omega
    · rw [modulus_toNat] at he
      simp only [q_eq] at *
      omega

/-- The factor `k` of a reduction round clears the low limb (R140). -/
theorem redc_low_zero (r0 : Word) :
    (mac r0 (r0 * Config.inv) Config.modulus.l0 0).1 = 0 := by
  have h := mac_toNat r0 (r0 * Config.inv) Config.modulus.l0 0
  have h0 := (mac r0 (r0 * Config.inv) Config.modulus.l0 0).1.isLt
  have hm : (r0.toNat + (r0 * Config.inv).toNat * Config.modulus.l0.toNat) % 2 ^ 64 = 0 := by
    have e : (r0 + r0 * Config.inv * Config.modulus.l0).toNat = 0 := by
      have : Config.inv * Config.modulus.l0 = -1 := by decide
      rw [BitVec.mul_assoc, this]
      have : r0 * (-1 : Word) = -r0 := by ring
      rw [this, BitVec.add_neg_eq_sub, BitVec.sub_self]; rfl
    rw [BitVec.toNat_add, BitVec.toNat_mul, Nat.add_mod_mod] at e
    exact e
  rw [zero_toNat, Nat.add_zero] at h
  apply BitVec.eq_of_toNat_eq
  rw [zero_toNat]
  generalize (r0 * Config.inv).toNat * Config.modulus.l0.toNat = p at *
  omega

/-- One reduction round: the accumulator plus `k * q`, divided by `2^64`, exactly (R140). -/
theorem redcRound_toNat (r0 r1 r2 r3 r4 carry2 : Word) :
    let o := redcRound r0 r1 r2 r3 r4 carry2
    (o.1.toNat + o.2.1.toNat * 2 ^ 64 + o.2.2.1.toNat * 2 ^ 128 + o.2.2.2.1.toNat * 2 ^ 192 +
        o.2.2.2.2.toNat * 2 ^ 256) * 2 ^ 64 =
      r0.toNat + r1.toNat * 2 ^ 64 + r2.toNat * 2 ^ 128 + r3.toNat * 2 ^ 192 + r4.toNat * 2 ^ 256 +
        carry2.toNat * 2 ^ 256 + (r0 * Config.inv).toNat * Config.q := by
  have hz := redc_low_zero r0
  have h0 := mac_toNat r0 (r0 * Config.inv) Config.modulus.l0 0
  rw [hz, zero_toNat] at h0
  unfold redcRound
  dsimp only
  generalize r0 * Config.inv = k at *
  have h1 := mac_toNat r1 k Config.modulus.l1 (mac r0 k Config.modulus.l0 0).2
  generalize mac r1 k Config.modulus.l1 (mac r0 k Config.modulus.l0 0).2 = p1 at *
  have h2 := mac_toNat r2 k Config.modulus.l2 p1.2
  generalize mac r2 k Config.modulus.l2 p1.2 = p2 at *
  have h3 := mac_toNat r3 k Config.modulus.l3 p2.2
  generalize mac r3 k Config.modulus.l3 p2.2 = p3 at *
  have h4 := adc_toNat r4 carry2 p3.2
  have e : k.toNat * Config.q = k.toNat * Config.modulus.l0.toNat + k.toNat * Config.modulus.l1.toNat * 2 ^ 64 +
      k.toNat * Config.modulus.l2.toNat * 2 ^ 128 + k.toNat * Config.modulus.l3.toNat * 2 ^ 192 := by
    rw [← modulus_toNat]; simp only [U256.toNat, Nat.mul_add, ← Nat.mul_assoc]
  rw [e]
  generalize k.toNat * Config.modulus.l0.toNat = m0 at *
  generalize k.toNat * Config.modulus.l1.toNat = m1 at *
  generalize k.toNat * Config.modulus.l2.toNat = m2 at *
  generalize k.toNat * Config.modulus.l3.toNat = m3 at *
  linarith

/-- The sum of four round equations in base `b`, over plain numbers. -/
theorem rounds_sum {b d c x a t r7 r6 r5 m0 m1 m2 m3 : Nat} (h0 : a * b = t + m0)
    (h1 : x * b = a + r5 * b ^ 4 + m1) (h2 : c * b = x + r6 * b ^ 4 + m2) (h3 : d * b = c + r7 * b ^ 4 + m3) :
    d * b ^ 4 = t + r5 * b ^ 5 + r6 * b ^ 6 + r7 * b ^ 7 + (m0 + m1 * b + m2 * b ^ 2 + m3 * b ^ 3) := by
  zify at *
  linear_combination b ^ 3 * h3 + b ^ 2 * h2 + b * h1 + h0

/-- The four rounds of the reduction: with `u` and `carry2` what they leave, `(u + carry2 * 2^256) * 2^256 = T + K * q`
for some `K < 2^256` (R141). -/
theorem redc_rounds (r : U512) :
    ∃ (u : U256) (c2 : Word) (k : Nat), redc r = subMod u Config.modulus ∧ k < 2 ^ 256 ∧
      (u.toNat + c2.toNat * 2 ^ 256) * 2 ^ 256 = r.toNat + k * Config.q := by
  unfold redc
  have h0 := redcRound_toNat r.r0 r.r1 r.r2 r.r3 r.r4 0
  have k0 := (r.r0 * Config.inv).isLt
  generalize redcRound r.r0 r.r1 r.r2 r.r3 r.r4 0 = p0 at h0 ⊢
  generalize (r.r0 * Config.inv).toNat = n0 at h0 k0
  obtain ⟨a1, a2, a3, a4, ca⟩ := p0
  dsimp only at h0 ⊢
  have h1 := redcRound_toNat a1 a2 a3 a4 r.r5 ca
  have k1 := (a1 * Config.inv).isLt
  generalize redcRound a1 a2 a3 a4 r.r5 ca = p1 at h1 ⊢
  generalize (a1 * Config.inv).toNat = n1 at h1 k1
  obtain ⟨b2, b3, b4, b5, cb⟩ := p1
  dsimp only at h1 ⊢
  have h2 := redcRound_toNat b2 b3 b4 b5 r.r6 cb
  have k2 := (b2 * Config.inv).isLt
  generalize redcRound b2 b3 b4 b5 r.r6 cb = p2 at h2 ⊢
  generalize (b2 * Config.inv).toNat = n2 at h2 k2
  obtain ⟨c3, c4, c5, c6, cc⟩ := p2
  dsimp only at h2 ⊢
  have h3 := redcRound_toNat c3 c4 c5 c6 r.r7 cc
  have k3 := (c3 * Config.inv).isLt
  generalize redcRound c3 c4 c5 c6 r.r7 cc = p3 at h3 ⊢
  generalize (c3 * Config.inv).toNat = n3 at h3 k3
  obtain ⟨d4, d5, d6, d7, cd⟩ := p3
  dsimp only at h3 ⊢
  refine ⟨⟨d4, d5, d6, d7⟩, cd, n0 + n1 * 2 ^ 64 + n2 * 2 ^ 128 + n3 * 2 ^ 192, rfl, by omega, ?_⟩
  have e : (n0 + n1 * 2 ^ 64 + n2 * 2 ^ 128 + n3 * 2 ^ 192) * Config.q =
      n0 * Config.q + n1 * Config.q * 2 ^ 64 + n2 * Config.q * 2 ^ 128 + n3 * Config.q * 2 ^ 192 := by ring
  have p : ((2 : Nat) ^ 64) ^ 4 = 2 ^ 256 := (Nat.pow_mul ..).symm
  have sum := rounds_sum (b := 2 ^ 64) (r5 := r.r5.toNat) (r6 := r.r6.toNat) (r7 := r.r7.toNat)
    (m1 := n1 * Config.q) (m2 := n2 * Config.q) (m3 := n3 * Config.q) h0
    (h1.trans (by rw [p]; omega)) (h2.trans (by rw [p]; omega)) (h3.trans (by rw [p]; omega))
  simp only [← Nat.pow_mul, Nat.reduceMul] at sum
  rw [e]
  refine (show _ = _ from sum).trans ?_
  clear sum p e h0 h1 h2 h3
  simp only [U512.toNat, zero_toNat]
  omega

/-- `redc(T) = T * RADIX^-1 mod q`, and the result is below `q`, for `T < q * RADIX` (R141). -/
theorem redc_toNat {r : U512} (h : r.toNat < Config.q * Config.radix) :
    (redc r).toNat = r.toNat * radixInv % Config.q := by
  obtain ⟨u, c2, k, he, hk, hu⟩ := redc_rounds r
  have hkq : k * Config.q ≤ (2 ^ 256 - 1) * Config.q := Nat.mul_le_mul_right _ (by omega)
  have hq := q_eq
  have hR : Config.radix = 2 ^ 256 := rfl
  rw [hR] at h
  have hlt : u.toNat < 2 * Config.q := by omega
  have hc : c2.toNat = 0 := by omega
  rw [he, subMod_modulus hlt]
  rw [hc, Nat.zero_mul, Nat.add_zero] at hu
  have e1 : u.toNat * (Config.radix * radixInv) % Config.q = u.toNat % Config.q := by
    rw [Nat.mul_mod, radix_mul_radixInv, Nat.mul_one, Nat.mod_mod]
  rw [← e1, ← Nat.mul_assoc, show u.toNat * Config.radix = r.toNat + k * Config.q from hu, Nat.add_mul,
    Nat.mul_assoc k, Nat.mul_comm Config.q, ← Nat.mul_assoc, Nat.add_mul_mod_self_right]

theorem redc_reduced {r : U512} (h : r.toNat < Config.q * Config.radix) : reduced (redc r) := by
  unfold reduced
  rw [redc_toNat h]
  exact Nat.mod_lt _ (by decide)

/-- `mont_mul(a, b) = a * b * RADIX^-1 mod q` when one operand is reduced (R142). -/
theorem montMul_toNat {a b : U256} (h : a.toNat * b.toNat < Config.q * Config.radix) :
    (montMul a b).toNat = a.toNat * b.toNat * radixInv % Config.q := by
  unfold montMul
  rw [redc_toNat (by rw [mul4x4_toNat]; exact h), mul4x4_toNat]

/-- The precondition of the reduction holds when one operand of a product is reduced (R141). -/
theorem mul_lt_of_reduced_left {a b : U256} (ha : reduced a) : a.toNat * b.toNat < Config.q * Config.radix := by
  unfold reduced at ha
  calc a.toNat * b.toNat ≤ a.toNat * 2 ^ 256 := Nat.mul_le_mul_left _ b.toNat_lt.le
    _ < Config.q * 2 ^ 256 := Nat.mul_lt_mul_of_pos_right ha (by decide)

theorem mul_lt_of_reduced_right {a b : U256} (hb : reduced b) : a.toNat * b.toNat < Config.q * Config.radix := by
  rw [Nat.mul_comm]; exact mul_lt_of_reduced_left hb

/-- `mont_mul` gives a reduced value when one operand is reduced (R141, R142). -/
theorem montMul_reduced {a b : U256} (h : reduced a ∨ reduced b) : reduced (montMul a b) := by
  unfold reduced
  rw [montMul_toNat (h.elim mul_lt_of_reduced_left mul_lt_of_reduced_right)]
  exact Nat.mod_lt _ (by decide)

/-- `from_mont(v)` with the logical value of `v` (spec/41_representation.md R125), for every `v < 2^256`. -/
theorem fromMont_toNat (v : U256) : (fromMont v).toNat = val v := by
  have hz : (⟨v.l0, v.l1, v.l2, v.l3, 0, 0, 0, 0⟩ : U512).toNat = v.toNat := by
    simp only [U512.toNat, U256.toNat, zero_toNat]; omega
  have hv := v.toNat_lt
  unfold fromMont val
  have hlt : v.toNat < Config.q * Config.radix := Nat.lt_of_lt_of_le hv (by decide)
  rw [redc_toNat (by rw [hz]; exact hlt), hz]

/-- `ct_eq` is equality (spec/46_ct_primitives.md R222: "It returns 1 exactly when `a = b`"). -/
theorem ctEq_iff (a b : U256) : ctEq a b = true ↔ a = b := by
  obtain ⟨a0, a1, a2, a3⟩ := a
  obtain ⟨b0, b1, b2, b3⟩ := b
  simp [ctEq, BitVec.xor_eq_zero_iff, and_assoc]

theorem ctEq_eq_decide (a b : U256) : ctEq a b = decide (a = b) := by
  rw [Bool.eq_iff_iff, ctEq_iff, decide_eq_true_iff]

theorem blend_zero (x y : Word) : blend x y 0 = x := by
  have h : (~~~(0 : Word)) = limbMax := by decide
  rw [blend, h, show x &&& limbMax = x from BitVec.and_allOnes]
  simp

theorem blend_limbMax (x y : Word) : blend x y limbMax = y := by
  have h : (~~~(limbMax : Word)) = 0 := by decide
  rw [blend, h, show y &&& limbMax = y from BitVec.and_allOnes]
  simp

/-- `ct_select` picks `a` for 0 and `b` for 1 (spec/46_ct_primitives.md R223). -/
theorem ctSelect_eq (a b : U256) (c : Bool) : ctSelect a b c = if c then b else a := by
  cases c
  · simp only [ctSelect, mask_false, blend_zero, Bool.false_eq_true, if_false]
  · simp only [ctSelect, mask_true, blend_limbMax, if_true]

/-- `lt_modulus(x)` is 1 exactly when `x < q` (spec/41_representation.md R123). -/
theorem ltModulus_iff (x : U256) : ltModulus x = true ↔ reduced x := by
  have h0 := x.l0.isLt; have h1 := x.l1.isLt; have h2 := x.l2.isLt; have h3 := x.l3.isLt
  have m0 : Config.modulus.l0.toNat = 0xffffffff00000001 := rfl
  have m1 : Config.modulus.l1.toNat = 0x53bda402fffe5bfe := rfl
  have m2 : Config.modulus.l2.toNat = 0x3339d80809a1d805 := rfl
  have m3 : Config.modulus.l3.toNat = 0x73eda753299d7d48 := rfl
  unfold reduced
  simp only [ltModulus, ltLimbs, BitVec.lt_def, m0, m1, m2, m3, U256.toNat, q_eq]
  split_ifs <;> simp only [true_iff, false_iff] <;> omega

end Sys2Proof.Machine
end

