-- ==== Sys2Proof/Laws/Engines.lean ====
section
/-! SUPPORT. One equation per round of each engine, free of the latch, for induction over the rounds
(spec/43_exponentiation.md R170, R171; spec/44_inversion.md R191; spec/45_sqrt.md R200), and the same for the engines
with a log (spec/70_reset_and_hazards.md R276 to R279). -/

namespace Sys2Proof.Machine

theorem forceNat_eq {α : Type} (n : Nat) (k : Nat → α) : forceNat n k = k n := by
  cases n <;> rfl

/-- The latch is the plain application. -/
@[simp] theorem latch_eq {α : Type} (v : U256) (k : U256 → α) : latch v k = k v := by
  rw [latch, forceNat_eq, U256.ofNat_toNat]

/-! Square-and-multiply. -/

theorem powCtLoop_zero (b e acc : U256) : powCtLoop b e 0 acc = acc := rfl

/-- One round of `pow_ct`: the select keeps the product exactly for a 1 bit (R170). -/
theorem powCtLoop_succ (b e acc : U256) (n : Nat) :
    powCtLoop b e (n + 1) acc =
      powCtLoop b e n (if e.bit n then montMul (montSqr acc) b else montSqr acc) := by
  rw [powCtLoop, latch_eq, latch_eq, ctSelect_eq]

theorem powVtLoop_zero (b e acc : U256) : powVtLoop b e 0 acc = acc := rfl

/-- One round of `pow_vt` (R171). -/
theorem powVtLoop_succ (b e acc : U256) (n : Nat) :
    powVtLoop b e (n + 1) acc =
      powVtLoop b e n (if e.bit n then montMul (montSqr acc) b else montSqr acc) := by
  rw [powVtLoop, latch_eq]
  split <;> simp

/-! Inversion chains. -/

theorem chainRun_cons (a : U256) (tmps : List U256) (st : ChainStep) (rest : List ChainStep) :
    chainRun a tmps (st :: rest) = chainRun a (chainStep a tmps st :: tmps) rest := by
  rw [chainRun, latch_eq]

theorem chainRun_append (a : U256) (tmps : List U256) (xs ys : List ChainStep) :
    chainRun a tmps (xs ++ ys) = chainRun a (chainRun a tmps xs) ys := by
  induction xs generalizing tmps with
  | nil => rfl
  | cons x xs ih => rw [List.cons_append, chainRun_cons, ih, chainRun_cons]

/-- The machine's schedule is the spec's default (R191). -/
theorem invChain_eq (a : U256) : invChain a = powCt a Config.expQm2 := rfl

/-! Square root. -/

theorem squareTimes_succ (n : Nat) (c : U256) : squareTimes (n + 1) c = squareTimes n (montSqr c) := by
  rw [squareTimes, latch_eq]

theorem orderSearch_succ (fuel i : Nat) (t2 : U256) :
    orderSearch (fuel + 1) i t2 =
      if t2 = Config.rOne then some i else orderSearch fuel (i + 1) (montSqr t2) := by
  rw [orderSearch, latch_eq]
  simp only [ctEq_iff]

/-- The updates of a round, free of the latch (R200). -/
theorem sqrtUpdate_eq (v : SqrtVars) (i : Nat) :
    sqrtUpdate v i =
      let c := squareTimes (v.m - i - 1) v.c
      ⟨montSqr c, montMul v.r c, montMul v.w (montSqr c), i⟩ := by
  simp only [sqrtUpdate, latch_eq]

/-- The loop ends with `r` once `w` is 1 (R200). -/
theorem sqrtLoop_done (fuel : Nat) {v : SqrtVars} (hw : v.w = Config.rOne) : sqrtLoop fuel v = some v.r := by
  have h : ctEq v.w Config.rOne = true := (ctEq_iff _ _).mpr hw
  cases fuel <;> simp only [sqrtLoop, h, if_true]

/-- One round of the loop, for the order `i` the inner search finds (R200). -/
theorem sqrtLoop_round {fuel i : Nat} {v : SqrtVars} (hw : v.w ≠ Config.rOne)
    (hi : orderSearch Config.twoAdicity 1 (montSqr v.w) = some i) :
    sqrtLoop (fuel + 1) v = sqrtLoop fuel (sqrtUpdate v i) := by
  have h : ctEq v.w Config.rOne = false := by rw [ctEq_eq_decide]; simpa using hw
  have hr : sqrtRound v = some (sqrtUpdate v i) := by rw [sqrtRound, hi, Option.map_some]
  rw [sqrtLoop, h, hr]
  rfl

/-- The steps of the square-root engine, by the Legendre symbol (R200). -/
theorem sqrtVtWith_eq (root a : U256) :
    sqrtVtWith root a =
      if powVt a Config.expLeg = U256.zero then .root a
      else if powVt a Config.expLeg = Config.rOne then
        (sqrtLoop Config.twoAdicity
          ⟨root, powVt a Config.expTp1h, powVt a Config.expT, Config.twoAdicity⟩).elim .diverges (fun r => .root r)
      else .noValue := by
  rw [sqrtVtWith, latch_eq]
  simp only [ctEq_eq_decide, decide_eq_true_eq, Bool.not_eq_true', decide_eq_false_iff_not]
  split <;> [rfl; skip]
  rw [ite_not]

/-! The engines with a log. -/

theorem powCtLogLoop_succ (b e acc : U256) (n : Nat) :
    powCtLogLoop b e (n + 1) acc =
      let r := powCtLogLoop b e n (if e.bit n then montMul (montSqr acc) b else montSqr acc)
      (r.1, .sqr :: .mul :: .sel :: r.2) := by
  rw [powCtLogLoop, latch_eq, latch_eq, ctSelect_eq]

theorem powVtLogLoop_succ (b e acc : U256) (n : Nat) :
    powVtLogLoop b e (n + 1) acc =
      let r := powVtLogLoop b e n (if e.bit n then montMul (montSqr acc) b else montSqr acc)
      (r.1, if e.bit n then .sqr :: .mul :: r.2 else .sqr :: r.2) := by
  rw [powVtLogLoop, latch_eq]
  split <;> simp

theorem orderSearchLog_succ (fuel i : Nat) (t2 : U256) :
    orderSearchLog (fuel + 1) i t2 =
      if t2 = Config.rOne then (some i, [.ceq])
      else
        let r := orderSearchLog fuel (i + 1) (montSqr t2)
        (r.1, .ceq :: .sqr :: r.2) := by
  rw [orderSearchLog, latch_eq]
  simp only [ctEq_iff]

end Sys2Proof.Machine
end

