-- ==== Sys2Proof/Laws/Field.lean ====
section
/-! SUPPORT. Small lemmas of the modular notation (spec/00_scope.md R12): what `mont` and `val` do to each other, and
repeated squaring modulo `q`, for powers whose exponent is a power of two. -/

namespace Sys2Proof.Machine

theorem q_pos : 0 < Config.q := by decide

theorem val_lt (v : U256) : val v < Config.q := Nat.mod_lt _ q_pos

/-- The Montgomery form of a value is reduced. -/
theorem mont_toNat (a : Nat) : (mont a).toNat = a * Config.radix % Config.q :=
  U256.toNat_ofNat_of_lt (lt_trans (Nat.mod_lt _ q_pos) (by decide))

theorem mont_reduced (a : Nat) : reduced (mont a) := by
  show (mont a).toNat < Config.q
  rw [mont_toNat]
  exact Nat.mod_lt _ q_pos

/-- `val(mont(a)) = a mod q` (R12). -/
theorem val_mont (a : Nat) : val (mont a) = a % Config.q := by
  rw [val, mont_toNat, Nat.mod_mul_mod, mul_assoc, Nat.mul_mod, radix_mul_radixInv, mul_one, Nat.mod_mod]

/-- `mont(val(v)) = v` for a reduced `v` (R12). -/
theorem mont_val {v : U256} (h : reduced v) : mont (val v) = v := by
  apply U256.toNat_inj
  rw [mont_toNat, val, Nat.mod_mul_mod, mul_assoc, Nat.mul_mod, mul_comm radixInv, radix_mul_radixInv, mul_one,
    Nat.mod_mod, Nat.mod_eq_of_lt h]

/-- `val` is one-to-one on reduced values (R12). -/
theorem val_inj {v w : U256} (hv : reduced v) (hw : reduced w) (h : val v = val w) : v = w := by
  rw [← mont_val hv, ← mont_val hw, h]

/-- `a` squared `n` times modulo `q`, every square reduced. -/
def squareMod : Nat → Nat → Nat
  | 0, a => a
  | n + 1, a => squareMod n (a * a % Config.q)

/-- `n` squarings give the power `2^n`. -/
theorem squareMod_eq (n a : Nat) : squareMod n a % Config.q = a ^ 2 ^ n % Config.q := by
  induction n generalizing a with
  | zero => simp [squareMod]
  | succ n ih => rw [squareMod, ih, ← Nat.pow_mod, pow_succ' 2 n, pow_mul, sq]

end Sys2Proof.Machine
end

