-- ==== Sys2Proof/Laws/PerInstr.lean ====
section
/-! SUPPORT. Per-instruction families (LAWS.json). -/

namespace Sys2Proof.Laws.WordOfFields

open Sys2Proof.Machine

/-- The word of a command is the sum of its opcode and its register fields, each at its column of format `R`
(spec/30_encoding.md R70, R73). -/
def Statement (i : Instr) : Prop :=
  encode i = commandWord (opcodeNumber (opcodeOfInstr i)).toNat (rdField i) (raField i) (rbField i)

/-- The shared reason: `encode` packs the four fields (R70). -/
theorem of_fields (i : Instr) : Statement i := by
  apply BitVec.eq_of_toNat_eq
  simp only [encode, encodeWord, commandWord, BitVec.toNat_setWidth, BitVec.toNat_ofNat, packFields_toNat]

theorem zero (rd : FReg) : Statement (.zero rd) := of_fields _
theorem one (rd : FReg) : Statement (.one rd) := of_fields _
theorem fromu64 (rd : FReg) : Statement (.fromu64 rd) := of_fields _
theorem dec (rd : FReg) : Statement (.dec rd) := of_fields _
theorem enc (ra : FReg) : Statement (.enc ra) := of_fields _
theorem neg (rd ra : FReg) : Statement (.neg rd ra) := of_fields _
theorem add (rd ra rb : FReg) : Statement (.add rd ra rb) := of_fields _
theorem sub (rd ra rb : FReg) : Statement (.sub rd ra rb) := of_fields _
theorem mul (rd ra rb : FReg) : Statement (.mul rd ra rb) := of_fields _
theorem sqr (rd ra : FReg) : Statement (.sqr rd ra) := of_fields _
theorem powc (rd ra : FReg) : Statement (.powc rd ra) := of_fields _
theorem powv (rd ra : FReg) : Statement (.powv rd ra) := of_fields _
theorem inv (rd ra : FReg) : Statement (.inv rd ra) := of_fields _
theorem sqrt (rd ra : FReg) : Statement (.sqrt rd ra) := of_fields _
theorem eq (ra rb : FReg) : Statement (.eq ra rb) := of_fields _
theorem sel (rd ra rb : FReg) : Statement (.sel rd ra rb) := of_fields _

end Sys2Proof.Laws.WordOfFields
end

