-- ==== Sys2Proof/Laws/State.lean ====
section
/-! SUPPORT. One lemma per field of State per update, and what the register accessors read after each update. -/

namespace Sys2Proof.Machine

@[simp] theorem writeF_f (s : State) (i : FReg) (v : U256) : (writeF s i v).f = s.f.set i v := rfl
@[simp] theorem writeF_data (s : State) (i : FReg) (v : U256) : (writeF s i v).data = s.data := rfl
@[simp] theorem writeF_eqFlag (s : State) (i : FReg) (v : U256) : (writeF s i v).eqFlag = s.eqFlag := rfl
@[simp] theorem writeF_noneFlag (s : State) (i : FReg) (v : U256) : (writeF s i v).noneFlag = s.noneFlag := rfl
@[simp] theorem writeF_ill (s : State) (i : FReg) (v : U256) : (writeF s i v).ill = s.ill := rfl
@[simp] theorem writeF_cause (s : State) (i : FReg) (v : U256) : (writeF s i v).cause = s.cause := rfl
@[simp] theorem writeF_inbox (s : State) (i : FReg) (v : U256) : (writeF s i v).inbox = s.inbox := rfl
@[simp] theorem writeF_replies (s : State) (i : FReg) (v : U256) : (writeF s i v).replies = s.replies := rfl

@[simp] theorem writeData_f (s : State) (i : Fin 4) (v : Word) : (writeData s i v).f = s.f := rfl
@[simp] theorem writeData_data (s : State) (i : Fin 4) (v : Word) : (writeData s i v).data = s.data.set i v := rfl
@[simp] theorem writeData_eqFlag (s : State) (i : Fin 4) (v : Word) : (writeData s i v).eqFlag = s.eqFlag := rfl
@[simp] theorem writeData_noneFlag (s : State) (i : Fin 4) (v : Word) : (writeData s i v).noneFlag = s.noneFlag := rfl
@[simp] theorem writeData_ill (s : State) (i : Fin 4) (v : Word) : (writeData s i v).ill = s.ill := rfl
@[simp] theorem writeData_cause (s : State) (i : Fin 4) (v : Word) : (writeData s i v).cause = s.cause := rfl
@[simp] theorem writeData_inbox (s : State) (i : Fin 4) (v : Word) : (writeData s i v).inbox = s.inbox := rfl
@[simp] theorem writeData_replies (s : State) (i : Fin 4) (v : Word) : (writeData s i v).replies = s.replies := rfl

@[simp] theorem writeDataAll_f (s : State) (v : U256) : (writeDataAll s v).f = s.f := rfl
@[simp] theorem writeDataAll_data (s : State) (v : U256) : (writeDataAll s v).data = #v[v.l0, v.l1, v.l2, v.l3] := rfl
@[simp] theorem writeDataAll_eqFlag (s : State) (v : U256) : (writeDataAll s v).eqFlag = s.eqFlag := rfl
@[simp] theorem writeDataAll_noneFlag (s : State) (v : U256) : (writeDataAll s v).noneFlag = s.noneFlag := rfl
@[simp] theorem writeDataAll_ill (s : State) (v : U256) : (writeDataAll s v).ill = s.ill := rfl
@[simp] theorem writeDataAll_cause (s : State) (v : U256) : (writeDataAll s v).cause = s.cause := rfl
@[simp] theorem writeDataAll_inbox (s : State) (v : U256) : (writeDataAll s v).inbox = s.inbox := rfl
@[simp] theorem writeDataAll_replies (s : State) (v : U256) : (writeDataAll s v).replies = s.replies := rfl

@[simp] theorem setInbox_f (s : State) (es : List HostEvent) : (setInbox s es).f = s.f := rfl
@[simp] theorem setInbox_data (s : State) (es : List HostEvent) : (setInbox s es).data = s.data := rfl
@[simp] theorem setInbox_eqFlag (s : State) (es : List HostEvent) : (setInbox s es).eqFlag = s.eqFlag := rfl
@[simp] theorem setInbox_noneFlag (s : State) (es : List HostEvent) : (setInbox s es).noneFlag = s.noneFlag := rfl
@[simp] theorem setInbox_ill (s : State) (es : List HostEvent) : (setInbox s es).ill = s.ill := rfl
@[simp] theorem setInbox_cause (s : State) (es : List HostEvent) : (setInbox s es).cause = s.cause := rfl
@[simp] theorem setInbox_inbox (s : State) (es : List HostEvent) : (setInbox s es).inbox = es := rfl
@[simp] theorem setInbox_replies (s : State) (es : List HostEvent) : (setInbox s es).replies = s.replies := rfl

@[simp] theorem reply_f (s : State) (v : Word) : (reply s v).f = s.f := rfl
@[simp] theorem reply_data (s : State) (v : Word) : (reply s v).data = s.data := rfl
@[simp] theorem reply_eqFlag (s : State) (v : Word) : (reply s v).eqFlag = s.eqFlag := rfl
@[simp] theorem reply_noneFlag (s : State) (v : Word) : (reply s v).noneFlag = s.noneFlag := rfl
@[simp] theorem reply_ill (s : State) (v : Word) : (reply s v).ill = s.ill := rfl
@[simp] theorem reply_cause (s : State) (v : Word) : (reply s v).cause = s.cause := rfl
@[simp] theorem reply_inbox (s : State) (v : Word) : (reply s v).inbox = s.inbox := rfl
@[simp] theorem reply_replies (s : State) (v : Word) : (reply s v).replies = v :: s.replies := rfl

@[simp] theorem raiseIllegal_f (s : State) (c : Cause) : (raiseIllegal c s).f = s.f := rfl
@[simp] theorem raiseIllegal_data (s : State) (c : Cause) : (raiseIllegal c s).data = s.data := rfl
@[simp] theorem raiseIllegal_eqFlag (s : State) (c : Cause) : (raiseIllegal c s).eqFlag = s.eqFlag := rfl
@[simp] theorem raiseIllegal_noneFlag (s : State) (c : Cause) : (raiseIllegal c s).noneFlag = s.noneFlag := rfl
@[simp] theorem raiseIllegal_ill (s : State) (c : Cause) : (raiseIllegal c s).ill = true := rfl
@[simp] theorem raiseIllegal_cause (s : State) (c : Cause) : (raiseIllegal c s).cause = causeCode c := rfl
@[simp] theorem raiseIllegal_inbox (s : State) (c : Cause) : (raiseIllegal c s).inbox = s.inbox := rfl
@[simp] theorem raiseIllegal_replies (s : State) (c : Cause) : (raiseIllegal c s).replies = s.replies := rfl

@[simp] theorem setEq_f (s : State) (b : Bool) : (setEq s b).f = s.f := rfl
@[simp] theorem setEq_data (s : State) (b : Bool) : (setEq s b).data = s.data := rfl
@[simp] theorem setEq_eqFlag (s : State) (b : Bool) : (setEq s b).eqFlag = b := rfl
@[simp] theorem setEq_noneFlag (s : State) (b : Bool) : (setEq s b).noneFlag = s.noneFlag := rfl
@[simp] theorem setEq_ill (s : State) (b : Bool) : (setEq s b).ill = s.ill := rfl
@[simp] theorem setEq_cause (s : State) (b : Bool) : (setEq s b).cause = s.cause := rfl
@[simp] theorem setEq_inbox (s : State) (b : Bool) : (setEq s b).inbox = s.inbox := rfl
@[simp] theorem setEq_replies (s : State) (b : Bool) : (setEq s b).replies = s.replies := rfl

@[simp] theorem setNone_f (s : State) (b : Bool) : (setNone s b).f = s.f := rfl
@[simp] theorem setNone_data (s : State) (b : Bool) : (setNone s b).data = s.data := rfl
@[simp] theorem setNone_eqFlag (s : State) (b : Bool) : (setNone s b).eqFlag = s.eqFlag := rfl
@[simp] theorem setNone_noneFlag (s : State) (b : Bool) : (setNone s b).noneFlag = b := rfl
@[simp] theorem setNone_ill (s : State) (b : Bool) : (setNone s b).ill = s.ill := rfl
@[simp] theorem setNone_cause (s : State) (b : Bool) : (setNone s b).cause = s.cause := rfl
@[simp] theorem setNone_inbox (s : State) (b : Bool) : (setNone s b).inbox = s.inbox := rfl
@[simp] theorem setNone_replies (s : State) (b : Bool) : (setNone s b).replies = s.replies := rfl

@[simp] theorem resetBlock_f (s : State) : (resetBlock s).f = Vector.replicate 16 U256.zero := rfl
@[simp] theorem resetBlock_data (s : State) : (resetBlock s).data = Vector.replicate 4 0 := rfl
@[simp] theorem resetBlock_eqFlag (s : State) : (resetBlock s).eqFlag = false := rfl
@[simp] theorem resetBlock_noneFlag (s : State) : (resetBlock s).noneFlag = false := rfl
@[simp] theorem resetBlock_ill (s : State) : (resetBlock s).ill = false := rfl
@[simp] theorem resetBlock_cause (s : State) : (resetBlock s).cause = 0 := rfl
@[simp] theorem resetBlock_inbox (s : State) : (resetBlock s).inbox = s.inbox := rfl
@[simp] theorem resetBlock_replies (s : State) : (resetBlock s).replies = s.replies := rfl

/-! What `readF` reads after each update. -/

@[simp] theorem readF_writeF_same (s : State) (i : FReg) (v : U256) : readF (writeF s i v) i = v := by
  simp [readF]

theorem readF_writeF_of_ne (s : State) (v : U256) {i j : FReg} (h : j ≠ i) : readF (writeF s i v) j = readF s j := by
  have : i.val ≠ j.val := fun e => h (Fin.ext e.symm)
  simp [readF, this]

theorem readF_writeF (s : State) (i j : FReg) (v : U256) :
    readF (writeF s i v) j = if j = i then v else readF s j := by
  by_cases h : j = i
  · subst h; simp
  · simp [h, readF_writeF_of_ne]

@[simp] theorem readF_writeData (s : State) (i : Fin 4) (v : Word) (j : FReg) : readF (writeData s i v) j = readF s j := rfl
@[simp] theorem readF_writeDataAll (s : State) (v : U256) (j : FReg) : readF (writeDataAll s v) j = readF s j := rfl
@[simp] theorem readF_setInbox (s : State) (es : List HostEvent) (j : FReg) : readF (setInbox s es) j = readF s j := rfl
@[simp] theorem readF_reply (s : State) (v : Word) (j : FReg) : readF (reply s v) j = readF s j := rfl
@[simp] theorem readF_raiseIllegal (s : State) (c : Cause) (j : FReg) : readF (raiseIllegal c s) j = readF s j := rfl
@[simp] theorem readF_setEq (s : State) (b : Bool) (j : FReg) : readF (setEq s b) j = readF s j := rfl
@[simp] theorem readF_setNone (s : State) (b : Bool) (j : FReg) : readF (setNone s b) j = readF s j := rfl
@[simp] theorem readF_resetBlock (s : State) (j : FReg) : readF (resetBlock s) j = U256.zero := by
  simp [readF]

@[simp] theorem readF_reset (j : FReg) : readF State.reset j = U256.zero := by
  simp [readF, State.reset]

/-! What `readData` reads after each update. -/

@[simp] theorem readData_writeData_same (s : State) (i : Fin 4) (v : Word) : readData (writeData s i v) i = v := by
  simp [readData]

theorem readData_writeData_of_ne (s : State) (v : Word) {i j : Fin 4} (h : j ≠ i) :
    readData (writeData s i v) j = readData s j := by
  have : i.val ≠ j.val := fun e => h (Fin.ext e.symm)
  simp [readData, this]

/-- The data buffer after `writeDataAll` is the written value. -/
@[simp] theorem dataV_writeDataAll (s : State) (v : U256) : dataV (writeDataAll s v) = v := rfl

@[simp] theorem readData_writeF (s : State) (i : FReg) (v : U256) (j : Fin 4) : readData (writeF s i v) j = readData s j := rfl
@[simp] theorem dataV_writeF (s : State) (i : FReg) (v : U256) : dataV (writeF s i v) = dataV s := rfl
@[simp] theorem readData_setInbox (s : State) (es : List HostEvent) (j : Fin 4) : readData (setInbox s es) j = readData s j := rfl
@[simp] theorem dataV_setInbox (s : State) (es : List HostEvent) : dataV (setInbox s es) = dataV s := rfl
@[simp] theorem readData_reply (s : State) (v : Word) (j : Fin 4) : readData (reply s v) j = readData s j := rfl
@[simp] theorem dataV_reply (s : State) (v : Word) : dataV (reply s v) = dataV s := rfl
@[simp] theorem readData_raiseIllegal (s : State) (c : Cause) (j : Fin 4) : readData (raiseIllegal c s) j = readData s j := rfl
@[simp] theorem dataV_raiseIllegal (s : State) (c : Cause) : dataV (raiseIllegal c s) = dataV s := rfl
@[simp] theorem readData_setEq (s : State) (b : Bool) (j : Fin 4) : readData (setEq s b) j = readData s j := rfl
@[simp] theorem dataV_setEq (s : State) (b : Bool) : dataV (setEq s b) = dataV s := rfl
@[simp] theorem readData_setNone (s : State) (b : Bool) (j : Fin 4) : readData (setNone s b) j = readData s j := rfl
@[simp] theorem dataV_setNone (s : State) (b : Bool) : dataV (setNone s b) = dataV s := rfl

/-- Two states are equal when all their fields are. -/
theorem State.ext_fields {s t : State} (h1 : s.f = t.f) (h2 : s.data = t.data) (h3 : s.eqFlag = t.eqFlag)
    (h4 : s.noneFlag = t.noneFlag) (h5 : s.ill = t.ill) (h6 : s.cause = t.cause) (h7 : s.inbox = t.inbox)
    (h8 : s.replies = t.replies) : s = t := by
  cases s; cases t; simp_all

end Sys2Proof.Machine
end

