-- ==== Sys2Proof/Laws/Step.lean ====
section
/-! SUPPORT. What a step, an access and a command can do, said once: the equations of `step`, of the window and of each
meaning, and the inversion lemmas for a command that answers a next state. -/

namespace Sys2Proof.Machine

/-! The step (spec/10_state.md R20). -/

theorem step_idle {s : State} (h : s.inbox = []) : step s = .next s := by
  simp [step, h, idle]

theorem step_event {s : State} {e : HostEvent} {rest : List HostEvent} (h : s.inbox = e :: rest) :
    step s = acceptEvent e (setInbox s rest) := by
  simp [step, h]

/-- The word of `withFetchWord` is the next value written to `CMD`. -/
theorem step_withFetchWord (s : State) (nbits w : Nat) :
    step (s.withFetchWord nbits w) = acceptEvent (hostWr .cmd (BitVec.ofNat 64 (w % 2 ^ nbits))) s := by
  rw [step_event (rest := s.inbox) rfl]
  rfl

/-! The window (spec/20_memory.md R50 to R56). -/

/-- The register at the offset of a register is that register (R50). -/
theorem winRegAt_winOffset (r : WinReg) : winRegAt (winOffset r) = some r := by
  match r with
  | .data 0 => rfl
  | .data 1 => rfl
  | .data 2 => rfl
  | .data 3 => rfl
  | .cmd => rfl
  | .status => rfl

/-- A read or write of a register at its own offset reaches it (R52). -/
theorem acceptAccess_at (k : AccessKind) (r : WinReg) (s : State) :
    acceptAccess ⟨k, winOffset r, 8⟩ s = accessReg r k s := by
  have hm : winOffset r % 8 = 0 := by
    match r with
    | .data 0 => rfl
    | .data 1 => rfl
    | .data 2 => rfl
    | .data 3 => rfl
    | .cmd => rfl
    | .status => rfl
  simp [acceptAccess, winRegAt_winOffset, hm]

@[simp] theorem acceptEvent_hostRd (r : WinReg) (s : State) :
    acceptEvent (hostRd r) s = .next (reply s (memRead s r)) := acceptAccess_at .read r s

@[simp] theorem acceptEvent_hostWr (r : WinReg) (v : Word) (s : State) :
    acceptEvent (hostWr r v) s = memWrite s r v := acceptAccess_at (.write v) r s

/-- A well-formed access reaches a register of the window (R51), whose offset it has. -/
theorem wellFormed_reaches {a : Access} (h : a.wellFormed = true) :
    a.width = 8 ∧ ∃ r, a.offset = winOffset r ∧ winRegAt a.offset = some r := by
  simp only [Access.wellFormed, Access.widthOk, Access.alignOk, Access.inWindow, Bool.and_eq_true, beq_iff_eq,
    decide_eq_true_eq] at h
  obtain ⟨⟨hw, ha⟩, h0, h1⟩ := h
  refine ⟨hw, ?_⟩
  have : a.offset = 0x00 ∨ a.offset = 0x08 ∨ a.offset = 0x10 ∨ a.offset = 0x18 ∨ a.offset = 0x20 ∨ a.offset = 0x28 := by
    omega
  rcases this with e | e | e | e | e | e
  · exact ⟨.data 0, e, e ▸ rfl⟩
  · exact ⟨.data 1, e, e ▸ rfl⟩
  · exact ⟨.data 2, e, e ▸ rfl⟩
  · exact ⟨.data 3, e, e ▸ rfl⟩
  · exact ⟨.cmd, e, e ▸ rfl⟩
  · exact ⟨.status, e, e ▸ rfl⟩

/-- A well-formed access is the host's read or write of a register of the window (R51). -/
theorem wellFormed_is_hostAccess {a : Access} (h : a.wellFormed = true) :
    ∃ r, (HostEvent.access a = hostRd r) ∨ (∃ v, HostEvent.access a = hostWr r v) := by
  obtain ⟨hw, r, hr, _⟩ := wellFormed_reaches h
  obtain ⟨k, off, w⟩ := a
  simp only at hw hr
  subst hw hr
  cases k with
  | read => exact ⟨r, .inl rfl⟩
  | write v => exact ⟨r, .inr ⟨v, rfl⟩⟩

theorem memWrite_cmd_of_cmd {v : Word} {i : Instr} (s : State) (h : decode v = .cmd i) :
    memWrite s .cmd v = exec i s := by
  simp [memWrite, executeCommand, h]

theorem memWrite_cmd_of_illegal {v : Word} {c : Cause} (s : State) (h : decode v = .illegal c) :
    memWrite s .cmd v = .next (raiseIllegal c s) := by
  simp [memWrite, executeCommand, h]

/-! The meanings (spec/30_encoding.md R73): each is one update of the state. -/

/-- What `DEC` does (spec/41_representation.md R124). -/
theorem execDec_eq (rd : FReg) (s : State) :
    execDec rd s = .next (if reduced (dataV s) then setNone (writeF s rd (montMul (dataV s) Config.r2)) false
      else setNone s true) := by
  by_cases h : reduced (dataV s)
  · simp [execDec, (ltModulus_iff _).mpr h, h]
  · have hf : ltModulus (dataV s) = false := by
      rw [← Bool.not_eq_true]; exact fun e => h ((ltModulus_iff _).mp e)
    simp [execDec, hf, h]

/-- What `SEL` does (spec/46_ct_primitives.md R221). -/
theorem execSel_eq (rd ra rb : FReg) (s : State) :
    execSel rd ra rb s = .next (writeF s rd (if s.eqFlag then readF s rb else readF s ra)) := by
  rw [execSel, ctSelect_eq]

/-- What `EQ` does (spec/46_ct_primitives.md R220). -/
theorem execEq_eq (ra rb : FReg) (s : State) :
    execEq ra rb s = .next (setEq s (decide (readF s ra = readF s rb))) := by
  rw [execEq, ctEq_eq_decide]

/-- Everything a `SQRT` that answers a next state can have done (spec/45_sqrt.md R201). -/
theorem execSqrt_cases {rd ra : FReg} {s t : State} (h : execSqrt rd ra s = .next t) :
    (∃ v, sqrtVt (readF s ra) = .root v ∧ t = setNone (writeF s rd v) false) ∨
      (sqrtVt (readF s ra) = .noValue ∧ t = setNone s true) := by
  rw [execSqrt] at h
  generalize sqrtVt (readF s ra) = r at *
  cases r with
  | root v => exact .inl ⟨v, rfl, (Host.Outcome.next.inj h).symm⟩
  | noValue => exact .inr ⟨rfl, (Host.Outcome.next.inj h).symm⟩
  | diverges => cases h

/-! The dispatch, one equation per command: cite these rather than unfold `exec`. -/

theorem exec_zero (rd : FReg) (s : State) : exec (.zero rd) s = .next (writeF s rd U256.zero) := rfl
theorem exec_one (rd : FReg) (s : State) : exec (.one rd) s = .next (writeF s rd Config.rOne) := rfl
theorem exec_fromu64 (rd : FReg) (s : State) :
    exec (.fromu64 rd) s = .next (writeF s rd (montMul (smallOperand s) Config.r2)) := rfl
theorem exec_dec (rd : FReg) (s : State) : exec (.dec rd) s = execDec rd s := rfl
theorem exec_enc (ra : FReg) (s : State) :
    exec (.enc ra) s = .next (writeDataAll s (fromMont (readF s ra))) := rfl
theorem exec_neg (rd ra : FReg) (s : State) :
    exec (.neg rd ra) s = .next (writeF s rd (negMod (readF s ra))) := rfl
theorem exec_add (rd ra rb : FReg) (s : State) :
    exec (.add rd ra rb) s = .next (writeF s rd (addMod (readF s ra) (readF s rb))) := rfl
theorem exec_sub (rd ra rb : FReg) (s : State) :
    exec (.sub rd ra rb) s = .next (writeF s rd (subMod (readF s ra) (readF s rb))) := rfl
theorem exec_mul (rd ra rb : FReg) (s : State) :
    exec (.mul rd ra rb) s = .next (writeF s rd (montMul (readF s ra) (readF s rb))) := rfl
theorem exec_sqr (rd ra : FReg) (s : State) :
    exec (.sqr rd ra) s = .next (writeF s rd (montSqr (readF s ra))) := rfl
theorem exec_powc (rd ra : FReg) (s : State) :
    exec (.powc rd ra) s = .next (writeF s rd (powCt (readF s ra) (exponentOperand s))) := rfl
theorem exec_powv (rd ra : FReg) (s : State) :
    exec (.powv rd ra) s = .next (writeF s rd (powVt (readF s ra) (exponentOperand s))) := rfl
theorem exec_inv (rd ra : FReg) (s : State) :
    exec (.inv rd ra) s = .next (writeF s rd (invChain (readF s ra))) := rfl
theorem exec_sqrt (rd ra : FReg) (s : State) : exec (.sqrt rd ra) s = execSqrt rd ra s := rfl
theorem exec_eq (ra rb : FReg) (s : State) : exec (.eq ra rb) s = execEq ra rb s := rfl
theorem exec_sel (rd ra rb : FReg) (s : State) : exec (.sel rd ra rb) s = execSel rd ra rb s := rfl

/-- Everything a command that answers a next state can have done: one of five updates of the state. -/
theorem exec_cases {i : Instr} {s t : State} (h : exec i s = .next t) :
    (∃ rd v, t = writeF s rd v) ∨ (∃ rd v, t = setNone (writeF s rd v) false) ∨ (t = setNone s true) ∨
      (∃ v, t = writeDataAll s v) ∨ (∃ b, t = setEq s b) := by
  cases i with
  | dec rd =>
    rw [exec_dec, execDec_eq] at h
    split at h
    · exact .inr (.inl ⟨rd, _, (Host.Outcome.next.inj h).symm⟩)
    · exact .inr (.inr (.inl (Host.Outcome.next.inj h).symm))
  | sqrt rd ra =>
    rw [exec_sqrt] at h
    rcases execSqrt_cases h with ⟨v, _, ht⟩ | ⟨_, ht⟩
    · exact .inr (.inl ⟨rd, v, ht⟩)
    · exact .inr (.inr (.inl ht))
  | enc ra => rw [exec_enc] at h; exact .inr (.inr (.inr (.inl ⟨_, (Host.Outcome.next.inj h).symm⟩)))
  | eq ra rb => rw [exec_eq, execEq] at h; exact .inr (.inr (.inr (.inr ⟨_, (Host.Outcome.next.inj h).symm⟩)))
  | sel rd ra rb => rw [exec_sel, execSel] at h; exact .inl ⟨rd, _, (Host.Outcome.next.inj h).symm⟩
  | zero rd => rw [exec_zero] at h; exact .inl ⟨rd, _, (Host.Outcome.next.inj h).symm⟩
  | one rd => rw [exec_one] at h; exact .inl ⟨rd, _, (Host.Outcome.next.inj h).symm⟩
  | fromu64 rd => rw [exec_fromu64] at h; exact .inl ⟨rd, _, (Host.Outcome.next.inj h).symm⟩
  | neg rd ra => rw [exec_neg] at h; exact .inl ⟨rd, _, (Host.Outcome.next.inj h).symm⟩
  | add rd ra rb => rw [exec_add] at h; exact .inl ⟨rd, _, (Host.Outcome.next.inj h).symm⟩
  | sub rd ra rb => rw [exec_sub] at h; exact .inl ⟨rd, _, (Host.Outcome.next.inj h).symm⟩
  | mul rd ra rb => rw [exec_mul] at h; exact .inl ⟨rd, _, (Host.Outcome.next.inj h).symm⟩
  | sqr rd ra => rw [exec_sqr] at h; exact .inl ⟨rd, _, (Host.Outcome.next.inj h).symm⟩
  | powc rd ra => rw [exec_powc] at h; exact .inl ⟨rd, _, (Host.Outcome.next.inj h).symm⟩
  | powv rd ra => rw [exec_powv] at h; exact .inl ⟨rd, _, (Host.Outcome.next.inj h).symm⟩
  | inv rd ra => rw [exec_inv] at h; exact .inl ⟨rd, _, (Host.Outcome.next.inj h).symm⟩

end Sys2Proof.Machine
end

