-- ==== Sys2Proof/Tests/Slice0.lean ====
section
/-! SUPPORT. Small tests against the vectors of spec/95_test_vectors.md (each names its table), smoke tests of every
well-formedness check, and for each statement with hypotheses a concrete state and operands that meet them. -/

namespace Sys2Proof.Tests

open Sys2Proof.Machine

/-! Helpers. -/

/-- The reset state with `F1`, `F2` and the data buffer as given. -/
def st (f1 f2 d : U256) : State :=
  { State.reset with f := (State.reset.f.set 1 f1).set 2 f2, data := #v[d.l0, d.l1, d.l2, d.l3] }

/-- The reset state with these host events waiting. -/
def port (es : List HostEvent) : State := setInbox State.reset es

/-- The element register `i` of a next state. -/
def regAfter (i : FReg) : Outcome → Option U256
  | .next s => some (readF s i)
  | .fault _ => none
  | .refused _ => none

/-- The logical value of the element register `i` of a next state. -/
def valAfter (i : FReg) (o : Outcome) : Option Nat := (regAfter i o).map val

/-- The data buffer of a next state. -/
def dataAfter : Outcome → Option U256
  | .next s => some (dataV s)
  | .fault _ => none
  | .refused _ => none

/-- `STATUS` of a next state. -/
def statusAfter : Outcome → Option Word
  | .next s => some (packStatus s)
  | .fault _ => none
  | .refused _ => none

/-- The refusal of an outcome. -/
def refusalOf : Outcome → Option Refusal
  | .next _ => none
  | .fault _ => none
  | .refused r => some r

/-- The step answers a next state. -/
def completes : Outcome → Bool
  | .next _ => true
  | .fault _ => false
  | .refused _ => false

/-- A next state, for an outcome that is one. -/
def stateOf : Outcome → State
  | .next s => s
  | .fault _ => State.reset
  | .refused _ => State.reset

theorem eq_next_of_completes {o : Outcome} (h : completes o = true) : o = .next (stateOf o) := by
  cases o with
  | next s => rfl
  | fault r => simp [completes] at h
  | refused r => simp [completes] at h

def zero4 : U256 := ⟨0, 0, 0, 0⟩
/-- `mont(2)` (2.2). -/
def m2 : U256 := ⟨0x00000003fffffffc, 0xb1096ff400069004, 0x33189fdfd9789fea, 0x304962b3598a0adf⟩
/-- `mont(3)` (2.2). -/
def m3 : U256 := ⟨0x00000005fffffffa, 0x098e27ee0009d806, 0xcca4efcfc634efe0, 0x486e140d064f104e⟩
/-- `mont(4)` (P3). -/
def m4 : U256 := ⟨0x00000007fffffff8, 0x6212dfe8000d2008, 0x66313fbfb2f13fd5, 0x6092c566b31415be⟩
/-- `mont(5)` (1.3). -/
def m5 : U256 := ⟨0x0000000afffffff5, 0x66d9f3df00120c0b, 0xcc83b7a7960bb7c5, 0x04c9cf6d363b9de5⟩
/-- `mont(q - 1)` (2.2). -/
def mL : U256 := ⟨0xfffffffd00000003, 0xfb38ec08fffb13fc, 0x99ad88181ce5880f, 0x5bc8f5f97cd877d8⟩
/-- The sample operand `x`, as data. -/
def dx : U256 := ⟨0x8899aabbccddeeff, 0x0011223344556677, 0xfedcba9876543210, 0x0123456789abcdef⟩
/-- `mont(x)` (2.2). -/
def mx : U256 := ⟨0x1bcf6ae69449a03b, 0xa667bdeb7bc6f104, 0x360fd5245051c363, 0x6a227b2fb6b27600⟩
/-- The sample operand `y`, as data. -/
def dy : U256 := ⟨0xe7f8091a2b3c4d5e, 0x6f708192a3b4c5d6, 0x5d7e9f1a2b3c4d5e, 0x2b1c4d6e8f9a0b3c⟩
/-- `q` as data (scenario 5). -/
def dq : U256 := ⟨0xffffffff00000001, 0x53bda402fffe5bfe, 0x3339d80809a1d805, 0x73eda753299d7d48⟩
/-- `L = q - 1` as data (scenario 1). -/
def dL : U256 := ⟨0xffffffff00000000, 0x53bda402fffe5bfe, 0x3339d80809a1d805, 0x73eda753299d7d48⟩
/-- Four words of ones. -/
def ones : U256 := ⟨limbMax, limbMax, limbMax, limbMax⟩

/-! Decoding: words written out from the columns of R70 (`rsv | rb | ra | rd | op`) and the map of R73. -/

theorem test_decode_zero : decode 0b000000000000000000000111_00000001 = .cmd (.zero 7) := by decide
theorem test_decode_one : decode 0b000000000000000000001111_00000010 = .cmd (.one 15) := by decide
theorem test_decode_fromu64 : decode 0b000000000000000000000001_00000011 = .cmd (.fromu64 1) := by decide
theorem test_decode_dec : decode 0b000000000000000000000010_00000100 = .cmd (.dec 2) := by decide
theorem test_decode_enc : decode 0b000000000000000000010000_00000101 = .cmd (.enc 1) := by decide
theorem test_decode_neg : decode 0b000000000000000000010101_00001000 = .cmd (.neg 5 1) := by decide
theorem test_decode_add : decode 0b000000000000001000010011_00001001 = .cmd (.add 3 1 2) := by decide
theorem test_decode_sub : decode 0b000000000000000101101001_00001010 = .cmd (.sub 9 6 1) := by decide
theorem test_decode_mul : decode 0b000000000000010000110101_00001011 = .cmd (.mul 5 3 4) := by decide
theorem test_decode_sqr : decode 0b000000000000000000100011_00001100 = .cmd (.sqr 3 2) := by decide
theorem test_decode_powc : decode 0b000000000000000000010010_00010000 = .cmd (.powc 2 1) := by decide
theorem test_decode_powv : decode 0b000000000000000000010011_00010001 = .cmd (.powv 3 1) := by decide
theorem test_decode_inv : decode 0b000000000000000010001111_00010010 = .cmd (.inv 15 8) := by decide
theorem test_decode_sqrt : decode 0b000000000000000000010010_00010011 = .cmd (.sqrt 2 1) := by decide
theorem test_decode_eq : decode 0b000000000000101010010000_00011000 = .cmd (.eq 9 10) := by decide
theorem test_decode_sel : decode 0b000000000000001001010110_00011001 = .cmd (.sel 6 5 2) := by decide

/-- The decoder reads the table's words (2.8). -/
theorem test_decodeTableWord : decodeTableWord 32 0x00021309 = some (.add 3 1 2) ∧
    decodeTableWord 32 0x00021301 = none ∧ decodeTableWord 32 0 = none := by decide

/-- The written form of a command (R77). -/
theorem test_asmText : asmText (.add 3 1 2) = "ADD F3, F1, F2" ∧ asmText (.eq 9 10) = "EQ F9, F10" := by decide

/-! Every well-formedness check refuses an ill-formed term. -/

/-- Opcode `0x06` is not in the map (R75). -/
theorem test_opListed_refuses : CmdFields.opListed ⟨0x06, 0, 0, 0, 0⟩ = false ∧
    CmdFields.wellFormed ⟨0x06, 0, 0, 0, 0⟩ = false := by decide
/-- A reserved bit is set (R70). -/
theorem test_rsvZero_refuses : CmdFields.rsvZero ⟨0x09, 3, 1, 2, 1⟩ = false ∧
    CmdFields.wellFormed ⟨0x09, 3, 1, 2, 1⟩ = false := by decide
/-- `ZERO` with `ra = 1` (R74). -/
theorem test_unusedZero_refuses : CmdFields.unusedZero ⟨0x01, 1, 1, 0, 0⟩ = false ∧
    CmdFields.wellFormed ⟨0x01, 1, 1, 0, 0⟩ = false := by decide
/-- `ADD F3, F1, F2` is well-formed. -/
theorem test_cmdFields_accepts : CmdFields.wellFormed ⟨0x09, 3, 1, 2, 0⟩ = true := by decide
/-- A 4-byte access (R51). -/
theorem test_widthOk_refuses : Access.widthOk ⟨.read, 0x28, 4⟩ = false ∧
    Access.wellFormed ⟨.read, 0x28, 4⟩ = false := by decide
/-- An access at offset 4 (R51). -/
theorem test_alignOk_refuses : Access.alignOk ⟨.read, 4, 8⟩ = false ∧ Access.wellFormed ⟨.read, 4, 8⟩ = false := by
  decide
/-- Accesses just above and just below the window (R51). -/
theorem test_inWindow_refuses : Access.wellFormed ⟨.read, 0x30, 8⟩ = false ∧
    Access.wellFormed ⟨.write 0, -8, 8⟩ = false := by decide
/-- The last register of the window, and a reset. -/
theorem test_access_accepts : Access.wellFormed ⟨.read, 0x28, 8⟩ = true ∧ HostEvent.wellFormed .reset = true ∧
    HostEvent.wellFormed (.access ⟨.read, 4, 8⟩) = false := by decide
/-- A chain step that names an intermediate not defined yet (R191). -/
theorem test_scoped_refuses : InvSchedule.wellFormed (.chain [.sqr (.tmp 0)]) = false ∧
    InvSchedule.wellFormed (.chain [.sqr .input, .mul (.tmp 1) .one]) = false ∧
    InvSchedule.wellFormed (.chain [.sqr .input, .mul (.tmp 0) .input]) = true := by decide

/-! The datapath (2.1, 2.2). -/

theorem test_adc : adc limbMax limbMax limbMax = (0xfffffffffffffffd, 2) ∧ adc 1 2 limbMax = (2, 1) := by decide
theorem test_sbb : sbb 0 limbMax limbMax = (0, limbMax) ∧ sbb 5 5 limbMax = (limbMax, limbMax) := by decide
theorem test_mac : mac limbMax limbMax limbMax limbMax = (limbMax, limbMax) ∧ mac 1 2 3 4 = (11, 0) := by decide
theorem test_add4 : add4 ones ⟨1, 0, 0, 0⟩ = (zero4, 1) := by decide
theorem test_sub4 : sub4 zero4 ⟨1, 0, 0, 0⟩ = (ones, limbMax) := by decide
theorem test_mul4x4 : mul4x4 ones ones = ⟨1, 0, 0, 0, limbMax - 1, limbMax, limbMax, limbMax⟩ := by decide
theorem test_sqr4 : sqr4 dx = ⟨0x4e6649d6eb652201, 0x3320eb708e220a24, 0x6e7c4b86d8ec6c02, 0x0ea38a5cb42a58d9,
    0xf928a45b3c363831, 0x422898b49e786484, 0xdee9d609ebe253a6, 0x00014b66dc33f6ac⟩ := by decide
theorem test_redc : redc ⟨0xc999e990f3f29c6d, 0x2b6cedcb87925c23, 0x05d314967254398f, 0x0748d9d99f59ff11, 0, 0, 0, 0⟩
    = Config.rOne := by decide

/-! The commands (2.2 to 2.7). -/

theorem test_zero : regAfter 7 (exec (.zero 7) (st m2 m3 dx)) = some zero4 := by decide
theorem test_one : valAfter 1 (exec (.one 1) (st m2 m3 dx)) = some 1 := by decide
/-- Only `DATA0` is read. -/
theorem test_fromu64 : regAfter 1 (exec (.fromu64 1) (st zero4 zero4 ⟨5, limbMax, limbMax, limbMax⟩)) = some m5 := by
  decide
/-- `x` is loaded; `q` is not canonical (scenario 5). -/
theorem test_dec : regAfter 2 (exec (.dec 2) (st zero4 zero4 dx)) = some mx ∧
    statusAfter (exec (.dec 2) (st zero4 m3 dq)) = some 2 ∧
    regAfter 2 (exec (.dec 2) (st zero4 m3 dq)) = some m3 := by decide
theorem test_enc : dataAfter (exec (.enc 1) (st mx m3 dq)) = some dx := by decide
/-- Scenario 2: `-0 = 0`, not `q`; `-L = 1`. -/
theorem test_neg : regAfter 5 (exec (.neg 5 1) (st zero4 m3 dq)) = some zero4 ∧
    regAfter 5 (exec (.neg 5 1) (st mL m3 dq)) = some Config.rOne := by decide
/-- Scenario 1: `L + L = q - 2`, with one register in all three places. -/
theorem test_add : valAfter 1 (exec (.add 1 1 1) (st mL m3 dq)) = some (Config.q - 2) ∧
    valAfter 3 (exec (.add 3 1 2) (st mx (mont dy.toNat) dq)) =
    some 0x2c3f92d61945d92c5c5b59b2a1907f6e6f81a3c5e80a2c4e7091b3d5f81a3c5d := by decide
/-- `x - y` wraps. -/
theorem test_sub : valAfter 3 (exec (.sub 3 1 2) (st mx (mont dy.toNat) dq)) =
    some 0x49f49f4c23af3ffbd497f38654b9bcb6e45e44a3a09efc9fa0a1a1a0a1a1a1a2 := by decide
theorem test_mul : valAfter 3 (exec (.mul 3 1 2) (st mx (mont dy.toNat) dq)) =
    some 0x6c185d7db0cd6948200fe0d1f9ca2d98ced6c384ab424352d3f9c60955d4c4f6 := by decide
theorem test_mul_extremes : regAfter 3 (exec (.mul 3 1 2) (st mL mL dq)) = some Config.rOne := by decide
theorem test_sqr : valAfter 3 (exec (.sqr 3 1) (st mx m3 dq)) =
    some 0x705f87d5826e9f7a40d21b54fd3019dabe78a3ef7e16b3aecb2e6fd06df2bf71 := by decide
/-- The base is the value `F[ra]` held when the command began. -/
theorem test_powc : valAfter 1 (exec (.powc 1 1) (st m3 m2 ones)) =
    some 0x72887f80e6c16f185608a163fdb1e2a190499565737ad77bb4629d9e2aab943c := by decide +kernel
/-- `0^0 = 1`. -/
theorem test_powc_zero : regAfter 2 (exec (.powc 2 1) (st zero4 m2 zero4)) = some Config.rOne := by decide +kernel
theorem test_powv : valAfter 3 (exec (.powv 3 1) (st mx m2 dy)) =
    some 0x4c45fbc4de865b1d4c33aac04b2324a52e8f3c93040aaae69fec69f22d1a73d0 := by decide +kernel
theorem test_inv : valAfter 2 (exec (.inv 2 1) (st m3 m2 dq)) =
    some 0x4d491a377113a8daccd13ab0066be558e27e6d5755543d54aaaaaaaa00000001 := by decide +kernel
/-- `-1` takes one round of the loop. -/
theorem test_sqrt : valAfter 2 (exec (.sqrt 2 1) (st mL m3 dq)) =
    some 0x00000000000000008d51ccce760304d0ec030002760300000001000000000000 := by decide +kernel
/-- 5 has no root: `NONE = 1`, `F2` stays. -/
theorem test_sqrt_none : statusAfter (exec (.sqrt 2 1) (st m5 m3 dq)) = some 2 ∧
    regAfter 2 (exec (.sqrt 2 1) (st m5 m3 dq)) = some m3 := by decide +kernel
/-- A difference in limb 0 alone is seen. -/
theorem test_eq : statusAfter (exec (.eq 1 2) (st Config.rOne
    ⟨0x00000001ffffffff, 0x5884b7fa00034802, 0x998c4fefecbc4ff5, 0x1824b159acc5056f⟩ dq)) = some 0 ∧
    statusAfter (exec (.eq 1 1) (st m2 m3 dq)) = some 1 := by decide
theorem test_sel : regAfter 3 (exec (.sel 3 1 2) (setEq (st m3 m5 dq) true)) = some m5 ∧
    regAfter 3 (exec (.sel 3 1 2) (setEq (st m3 m5 dq) false)) = some m3 := by decide

/-! The step and the window (2.8, 2.9). -/

theorem test_fetch_add : valAfter 3 (step ((st mL m2 dq).withFetchWord 32 0x00021309)) = some 1 := by decide
/-- The causes, and their priority. -/
theorem test_illegal_status : statusAfter (step (State.reset.withFetchWord 32 0)) = some 0x24 ∧
    statusAfter (step (State.reset.withFetchWord 32 0xFFF000FF)) = some 0x24 ∧
    statusAfter (step (State.reset.withFetchWord 32 0x0F0FFF19)) = some 0x34 ∧
    statusAfter (step (State.reset.withFetchWord 32 0x000A0C0C)) = some 0x44 ∧
    statusAfter (step (State.reset.withFetchWord 64 0x100000001)) = some 0x14 := by decide
theorem test_write_data : dataAfter (step (port [hostWr (.data 2) 0x0123456789abcdef])) =
    some ⟨0, 0, 0x0123456789abcdef, 0⟩ := by decide
theorem test_write_status_ignored :
    statusAfter (step { port [hostWr .status 0] with ill := true, cause := 2 }) = some 0x24 := by decide
theorem test_malformed_refused : refusalOf (step (port [.access ⟨.read, 0x28, 4⟩])) = some .accessWidth ∧
    refusalOf (step (port [.access ⟨.read, 0x24, 8⟩])) = some .accessMisaligned ∧
    refusalOf (step (port [.access ⟨.read, 0x30, 8⟩])) = some .accessOutsideWindow := by decide
/-- Byte 0 of the buffer is the low byte of `DATA0`, byte 31 the high byte of `DATA3` (scenario 5's bytes of `q`). -/
theorem test_data_bytes : dataByte (st m2 m3 dq) 0 = 0x01 ∧ dataByte (st m2 m3 dq) 31 = 0x73 := by decide

/-! Traces (scenario 5, 2.2, 2.4). -/

theorem test_trace_dec : trace (st m2 m3 dq) 0x00000204 = [.cmpl 3, .cmpl 2, .cmpl 1, .cmpl 0] ∧
    trace (st m2 m3 ones) 0x00000204 = [.cmpl 3] := by decide
theorem test_trace_powv : (trace (st mx m3 dy) 0x00001311).count .sqr = 256 ∧
    (trace (st mx m3 dy) 0x00001311).count .mul = 133 := by decide +kernel

/-! Witnesses: for each statement with hypotheses, a state and operands that meet them, clause by clause. -/

/-- `F1` stands for `q - 1`; `F2` and the data buffer hold the largest reduced value. -/
def top : State := st mL dL dL

/-- A state in which an illegal command was recorded meets the invariant. -/
theorem inv_flagged (es : List HostEvent) : State.Inv (setInbox (raiseIllegal .badOpcode State.reset) es) := by
  refine ⟨fun i => ?_, (by decide : (causeCode .badOpcode).toNat ≤ 4),
    (by decide : causeCode .badOpcode = 0 ↔ true = false)⟩
  rw [readF_setInbox, readF_raiseIllegal, readF_reset]
  decide

theorem witness_LegalWordHasOneSpelling : decode 0x00021309 = .cmd (.add 3 1 2) := by decide

theorem witness_DecodeAgreesWithTableRows : (⟨.sel, 0x00000019, 0xFFF000FF⟩ : TableRow) ∈ opcodeTable := by decide

/-- The smallest value with a high half; the largest without one; opcode 0; the lowest reserved bit; an unused field;
`SEL F15, F15, F15`. -/
theorem witness_DecoderReportsFirstCause : 2 ^ 32 ≤ (0x100000000 : Word).toNat ∧
    ((0xFFFFFFFF : Word).toNat < 2 ^ 32 ∧ CmdFields.opListed ⟨0xFF, 0xF, 0xF, 0xF, 0xFFF⟩ = false) ∧
    CmdFields.opListed ⟨0, 0, 0, 0, 0⟩ = false ∧
    (CmdFields.opListed ⟨0x09, 0, 0, 0, 1⟩ = true ∧ CmdFields.rsvZero ⟨0x09, 0, 0, 0, 1⟩ = false) ∧
    (CmdFields.opListed ⟨0x01, 0, 1, 0, 0⟩ = true ∧ CmdFields.rsvZero ⟨0x01, 0, 1, 0, 0⟩ = true ∧
      CmdFields.unusedZero ⟨0x01, 0, 1, 0, 0⟩ = false) ∧
    CmdFields.wellFormed ⟨0x19, 0xF, 0xF, 0xF, 0⟩ = true := by decide

theorem witness_PowerEnginesGiveThePower : reduced dL ∧ reduced zero4 := by decide

theorem witness_InversionScheduleDoesNotMatter : scheduleConforms .powCt ∧ reduced (readF top 2) :=
  ⟨fun _ _ => rfl, by decide⟩

/-- The cube of the default root is another primitive root. -/
def cubeRoot : U256 := ⟨0x09ac057eb73af68d, 0x3abd181507e397e3, 0xd44a20810e593740, 0x048d45cbc99eafd8⟩

theorem primitiveRoot_cubeRoot : primitiveRoot cubeRoot := by
  refine ⟨by decide, ?_, ?_⟩
  · rw [← squareMod_eq]
    decide +kernel
  · rw [← squareMod_eq]
    decide +kernel

/-- 4 is a quadratic residue. -/
theorem residue_four : isResidue (val m4) := ⟨by decide, 2, by decide⟩

/-- 5 is not, by the Jacobi symbol. -/
theorem not_residue_five : ¬ isResidue (val m5) := by
  have hv : val m5 = 5 := by decide
  rw [hv]
  rintro ⟨_, r, hr⟩
  have hj : jacobiSym 5 Config.q = -1 := by
    rw [q_eq]
    norm_num
  have hs : ¬ IsSquare ((5 : ℤ) : ZMod Config.q) := ZMod.nonsquare_of_jacobiSym_eq_neg_one hj
  apply hs
  refine ⟨(r : ZMod Config.q), ?_⟩
  have := (ZMod.natCast_eq_natCast_iff' (r * r) 5 Config.q).mpr hr
  push_cast at this
  push_cast
  exact this.symm

theorem witness_SquareRootIsCorrectForEveryRoot : primitiveRoot cubeRoot ∧
    (reduced zero4 ∧ val zero4 = 0) ∧ (reduced m4 ∧ isResidue (val m4)) ∧
    (reduced m5 ∧ val m5 ≠ 0 ∧ ¬ isResidue (val m5)) :=
  ⟨primitiveRoot_cubeRoot, by decide, ⟨by decide, residue_four⟩, by decide, by decide, not_residue_five⟩

/-- `q - 1` is the last canonical input, `q` the first that is not. -/
theorem witness_DecLoadsCanonicalOnly : (dataV (st zero4 zero4 dL)).toNat < Config.q ∧
    Config.q ≤ (dataV (st zero4 zero4 dq)).toNat := by decide

theorem witness_NegIsModularNegation : reduced (readF top 2) ∧ reduced (readF top 0) := by decide
theorem witness_AddIsModularAddition : reduced (readF top 1) ∧ reduced (readF top 2) := by decide
theorem witness_SubIsModularSubtraction : reduced (readF top 0) ∧ reduced (readF top 2) := by decide
theorem witness_MulIsFieldMultiplication : reduced (readF top 2) ∧ reduced (readF top 1) := by decide
theorem witness_SqrIsFieldSquaring : reduced (readF top 2) := by decide
theorem witness_PowcIsExponentiation : reduced (readF (st dL zero4 ones) 1) := by decide
theorem witness_PowvIsExponentiation : reduced (readF (st dL zero4 ones) 1) ∧
    dataV (st mx m2 ones) = dataV (st dL zero4 ones) := by decide
theorem witness_InvIsModularInverse : (reduced (readF top 1) ∧ val (readF top 1) ≠ 0) ∧
    (reduced (readF top 0) ∧ val (readF top 0) = 0) := by decide

theorem witness_SqrtGivesRootOrNoValue : (reduced (readF (st m4 m5 dq) 0) ∧ val (readF (st m4 m5 dq) 0) = 0) ∧
    (reduced (readF (st m4 m5 dq) 1) ∧ isResidue (val (readF (st m4 m5 dq) 1))) ∧
    (reduced (readF (st m4 m5 dq) 2) ∧ val (readF (st m4 m5 dq) 2) ≠ 0 ∧
      ¬ isResidue (val (readF (st m4 m5 dq) 2))) :=
  ⟨by decide, ⟨by decide, residue_four⟩, by decide, by decide, not_residue_five⟩

theorem witness_EqComparesElements : reduced (readF top 1) ∧ reduced (readF top 2) := by decide
theorem witness_SelPicksByEqFlag : (setEq top false).eqFlag = false ∧ (setEq top true).eqFlag = true ∧
    reduced (readF top 1) ∧ reduced (readF top 2) := by decide
theorem witness_EncodeDecodeRoundTrips : reduced (readF top 2) ∧ (dataV top).toNat < Config.q ∧
    (dataV (st zero4 zero4 ⟨limbMax, 0, 0, 0⟩)).toNat < 2 ^ 64 := by decide

theorem witness_StepRunsTheDecodedCommand :
    ((port [hostWr .cmd 0x00021309]).inbox = hostWr .cmd 0x00021309 :: [] ∧ decode 0x00021309 = .cmd (.add 3 1 2)) ∧
    ((port [hostWr .cmd 0xFF, .reset]).inbox = hostWr .cmd 0xFF :: [.reset] ∧ decode 0xFF = .illegal .badOpcode) ∧
    ((port [hostWr .cmd 0x100000000]).inbox = hostWr .cmd 0x100000000 :: [] ∧
      2 ^ 32 ≤ (0x100000000 : Word).toNat) := by decide

theorem witness_IllegalCommandSetsIllAndCauseOnly :
    ((port [hostWr .cmd 0x100000001]).inbox = hostWr .cmd 0x100000001 :: [] ∧
      decode 0x100000001 = .illegal .cmdHigh) ∧
    ((port [hostWr .cmd 0x1101]).inbox = hostWr .cmd 0x1101 :: [] ∧ decode 0x1101 = .illegal .unusedField) := by decide

theorem witness_DataRegistersReadAndWrite :
    (port [hostWr (.data 3) limbMax]).inbox = hostWr (.data 3) limbMax :: [] ∧
    (port [hostRd (.data 0)]).inbox = hostRd (.data 0) :: [] := by decide
theorem witness_CmdReadsAsZero : (port [hostRd .cmd]).inbox = hostRd .cmd :: [] := by decide
theorem witness_StatusReadsPackedAndIgnoresWrites : (port [hostRd .status]).inbox = hostRd .status :: [] ∧
    (port [hostWr .status limbMax]).inbox = hostWr .status limbMax :: [] := by decide

/-- The edges of the window: `0x28` is the last register, `0x30` and `-8` lie outside. -/
theorem witness_OnlyWellFormedAccessesAreAccepted :
    ((port [.access ⟨.read, 0x28, 8⟩]).inbox = .access ⟨.read, 0x28, 8⟩ :: [] ∧
      Access.wellFormed ⟨.read, 0x28, 8⟩ = true) ∧
    ((port [.access ⟨.read, 0x30, 8⟩]).inbox = .access ⟨.read, 0x30, 8⟩ :: [] ∧
      Access.wellFormed ⟨.read, 0x30, 8⟩ = false) ∧
    ((port [.access ⟨.write 1, -8, 8⟩]).inbox = .access ⟨.write 1, -8, 8⟩ :: [] ∧
      Access.wellFormed ⟨.write 1, -8, 8⟩ = false) := by decide

theorem witness_WindowMapHoldsForEveryBase : 0x30 ≤ 0x30 ∧ 0x30 % 8 = 0 := by decide
theorem witness_BlockIsIdleWithoutHostEvent : State.reset.inbox = [] := by decide

theorem witness_StepAcceptsEventsInOrder :
    (port [hostRd .status, .reset]).inbox = hostRd .status :: [.reset] ∧
    step (port [hostRd .status, .reset]) = .next (stateOf (step (port [hostRd .status, .reset]))) :=
  ⟨by decide, eq_next_of_completes (by decide)⟩

theorem witness_ResetEventClearsTheBlock : (setInbox top [.reset]).inbox = .reset :: [] := by decide

/-- 32 bytes 0 to 31. -/
def someBytes : Vector (BitVec 8) 32 := Vector.ofFn (fun i => BitVec.ofNat 8 i.val)

theorem witness_HostBytesArriveInOrder :
    (port [hostWr (.data 0) 0x0706050403020100, hostWr (.data 1) 0x0f0e0d0c0b0a0908,
      hostWr (.data 2) 0x1716151413121110, hostWr (.data 3) 0x1f1e1d1c1b1a1918]).inbox =
      hostWr (.data 0) (wordOfBytes someBytes[0] someBytes[1] someBytes[2] someBytes[3] someBytes[4] someBytes[5]
        someBytes[6] someBytes[7]) ::
      hostWr (.data 1) (wordOfBytes someBytes[8] someBytes[9] someBytes[10] someBytes[11] someBytes[12] someBytes[13]
        someBytes[14] someBytes[15]) ::
      hostWr (.data 2) (wordOfBytes someBytes[16] someBytes[17] someBytes[18] someBytes[19] someBytes[20]
        someBytes[21] someBytes[22] someBytes[23]) ::
      hostWr (.data 3) (wordOfBytes someBytes[24] someBytes[25] someBytes[26] someBytes[27] someBytes[28]
        someBytes[29] someBytes[30] someBytes[31]) :: [] := by decide

/-- A state that meets the invariant and steps on. -/
def flagged : State := setInbox (raiseIllegal .badOpcode State.reset) [hostWr .cmd 0x00021309]

theorem witness_StepKeepsInvariant : State.Inv flagged ∧ step flagged = .next (stateOf (step flagged)) :=
  ⟨inv_flagged _, eq_next_of_completes (by decide)⟩

theorem inbox_not_reset {s : State} (h : s.inbox.head? ≠ some .reset) (rest : List HostEvent) :
    s.inbox ≠ .reset :: rest := fun e => h (by rw [e]; rfl)

/-- `ILL` was 1 and stays; `ILL` becomes 1. -/
theorem witness_IllIsStickyAndWrittenByIllegalCommandsOnly :
    (step flagged = .next (stateOf (step flagged)) ∧ flagged.ill = true) ∧
    (step (port [hostWr .cmd 0]) = .next (stateOf (step (port [hostWr .cmd 0]))) ∧
      (stateOf (step (port [hostWr .cmd 0]))).ill ≠ (port [hostWr .cmd 0]).ill) ∧
    (∀ rest, flagged.inbox ≠ .reset :: rest) ∧ (∀ rest, (port [hostWr .cmd 0]).inbox ≠ .reset :: rest) :=
  ⟨⟨eq_next_of_completes (by decide), by decide⟩, ⟨eq_next_of_completes (by decide), by decide⟩,
    inbox_not_reset (by decide), inbox_not_reset (by decide)⟩

theorem witness_EqFlagIsPrivateToEqAndSel : exec (.zero 0) top = .next (stateOf (exec (.zero 0) top)) ∧
    (∀ ra rb, Instr.zero 0 ≠ .eq ra rb) ∧ (∀ rd ra rb, Instr.zero 0 ≠ .sel rd ra rb) :=
  ⟨eq_next_of_completes (by decide), nofun, nofun⟩

theorem witness_NoneFlagIsWrittenByDecAndSqrtOnly : (exec (.zero 0) top = .next (stateOf (exec (.zero 0) top)) ∧
    (∀ rd, Instr.zero 0 ≠ .dec rd) ∧ (∀ rd ra, Instr.zero 0 ≠ .sqrt rd ra)) ∧
    exec (.dec 0) top = .next (stateOf (exec (.dec 0) top)) ∧
    exec (.sqrt 0 1) (st m5 m3 dq) = .next (stateOf (exec (.sqrt 0 1) (st m5 m3 dq))) :=
  ⟨⟨eq_next_of_completes (by decide), nofun, nofun⟩, eq_next_of_completes (by decide),
    eq_next_of_completes (by decide +kernel)⟩

/-- `ONE F1` changes a register; a read of `STATUS` and a reset are events other than a `CMD` write. -/
theorem witness_OnlyCommandsReachElementRegisters :
    (step (port [hostWr .cmd 0x00000102]) = .next (stateOf (step (port [hostWr .cmd 0x00000102]))) ∧
      ¬ sameRegs (port [hostWr .cmd 0x00000102]) (stateOf (step (port [hostWr .cmd 0x00000102])))) ∧
    ((∀ v rest, (port [hostRd .status]).inbox ≠ hostWr .cmd v :: rest) ∧
      step (port [hostRd .status]) = .next (stateOf (step (port [hostRd .status])))) ∧
    ((∀ v rest, (setInbox top [.reset]).inbox ≠ hostWr .cmd v :: rest) ∧
      step (setInbox top [.reset]) = .next (stateOf (step (setInbox top [.reset])))) :=
  ⟨⟨eq_next_of_completes (by decide), fun h => absurd (h 1) (by decide)⟩,
    ⟨nofun, eq_next_of_completes (by decide)⟩, ⟨nofun, eq_next_of_completes (by decide)⟩⟩

theorem witness_EveryInterleavingRunsToTheEnd :
    Interleaves [hostWr .cmd 0x00001213, hostRd .status] [hostWr (.data 0) 7]
      [hostWr .cmd 0x00001213, hostWr (.data 0) 7, hostRd .status] ∧
    (∀ e ∈ [hostWr .cmd 0x00001213, hostRd .status], e.wellFormed = true) ∧
    (∀ e ∈ [hostWr (.data 0) 7], e.wellFormed = true) ∧
    State.Inv (setInbox (raiseIllegal .badOpcode State.reset)
      [hostWr .cmd 0x00001213, hostWr (.data 0) 7, hostRd .status]) :=
  ⟨.left _ (.right _ (.left _ .nil)), by decide, by decide, inv_flagged _⟩

/-- An illegal word; a constant-time command; `SQRT` in two states that agree on its operand only. -/
theorem witness_ConstantTimeContract : decode 0 = .illegal .badOpcode ∧
    (decode 0x00001210 = .cmd (.powc 2 1) ∧ variableTime (.powc 2 1) = false) ∧
    (decode 0x00001213 = .cmd (.sqrt 2 1) ∧ variableTime (.sqrt 2 1) = true ∧
      agreeOnPublic (.sqrt 2 1) (st m4 m2 dq) (st m4 m5 dx)) := by
  refine ⟨by decide, by decide, by decide, by decide, ?_⟩
  show readF (st m4 m2 dq) 1 = readF (st m4 m5 dx) 1
  decide

/-- Inputs that first differ from `q` at limb 3, 2, 1 and 0, and `q` itself. -/
theorem witness_DecTraceStopsAtFirstDifference :
    (dataV (st m2 m3 dx)).l3 ≠ Config.modulus.l3 ∧
    ((dataV (st m2 m3 ⟨0, 0, 0, dq.l3⟩)).l3 = Config.modulus.l3 ∧
      (dataV (st m2 m3 ⟨0, 0, 0, dq.l3⟩)).l2 ≠ Config.modulus.l2) ∧
    ((dataV (st m2 m3 ⟨0, 0, dq.l2, dq.l3⟩)).l3 = Config.modulus.l3 ∧
      (dataV (st m2 m3 ⟨0, 0, dq.l2, dq.l3⟩)).l2 = Config.modulus.l2 ∧
      (dataV (st m2 m3 ⟨0, 0, dq.l2, dq.l3⟩)).l1 ≠ Config.modulus.l1) ∧
    ((dataV (st m2 m3 dL)).l3 = Config.modulus.l3 ∧ (dataV (st m2 m3 dL)).l2 = Config.modulus.l2 ∧
      (dataV (st m2 m3 dL)).l1 = Config.modulus.l1) ∧
    ((dataV (st m2 m3 dq)).l3 = Config.modulus.l3 ∧ (dataV (st m2 m3 dq)).l2 = Config.modulus.l2 ∧
      (dataV (st m2 m3 dq)).l1 = Config.modulus.l1) := by decide

theorem witness_SqrtTraceFollowsTheRounds : (reduced (readF (st m4 m5 dq) 0) ∧ val (readF (st m4 m5 dq) 0) = 0) ∧
    (reduced (readF (st m4 m5 dq) 2) ∧ val (readF (st m4 m5 dq) 2) ≠ 0 ∧
      ¬ isResidue (val (readF (st m4 m5 dq) 2))) ∧
    (reduced (readF (st m4 m5 dq) 1) ∧ isResidue (val (readF (st m4 m5 dq) 1))) :=
  ⟨by decide, ⟨by decide, by decide, not_residue_five⟩, by decide, residue_four⟩

theorem witness_OtherTracesAreSingleOperations : decode 0x00100109 = .illegal .rsvBits := by decide

end Sys2Proof.Tests
end

section
/-! The modulus is prime (spec/00_scope.md R2), by Lucas's test: 7 has order `q - 1` modulo `q`, which the complete
factorisation of `q - 1` into primes below `2^28` makes a finite check. -/

namespace Sys2Proof.Machine

/-- `b ^ e % m` by square-and-multiply over the `n` low bits of `e`, every intermediate reduced, so that the kernel can
evaluate powers with 256-bit exponents. -/
def natPowMod (b m : ℕ) : ℕ → ℕ → ℕ
  | 0, _ => 1
  | n + 1, e => natPowMod b m n (e / 2) ^ 2 * b ^ (e % 2) % m

/-- On an exponent of at most `n` bits, `natPowMod` is the power modulo `m`. -/
theorem natPowMod_modEq (b m : ℕ) {n e : ℕ} (he : e < 2 ^ n) : natPowMod b m n e ≡ b ^ e [MOD m] := by
  induction n generalizing e with
  | zero => rw [Nat.lt_one_iff.mp he]; rfl
  | succ n ih =>
    have hhalf : e / 2 < 2 ^ n := by rw [pow_succ] at he; omega
    calc natPowMod b m (n + 1) e
      _ ≡ natPowMod b m n (e / 2) ^ 2 * b ^ (e % 2) [MOD m] := Nat.mod_modEq _ _
      _ ≡ (b ^ (e / 2)) ^ 2 * b ^ (e % 2) [MOD m] := ((ih hhalf).pow 2).mul_right _
      _ = b ^ e := by rw [← pow_mul, ← pow_add, Nat.div_add_mod' e 2]

/-- A power in `ZMod m` is 1 exactly when the evaluated power is 1 modulo `m`. -/
theorem zmod_pow_eq_one_iff (b m : ℕ) {n e : ℕ} (he : e < 2 ^ n) :
    (b : ZMod m) ^ e = 1 ↔ natPowMod b m n e % m = 1 % m := by
  rw [← Nat.cast_pow, ← Nat.cast_one, ZMod.natCast_eq_natCast_iff]
  exact ⟨(natPowMod_modEq b m he).trans, (natPowMod_modEq b m he).symm.trans⟩

/-- The prime factors of `q - 1`. -/
def qPredPrimes : List ℕ :=
  [2, 3, 11, 19, 10177, 125527, 859267, 906349, 2508409, 2529403, 52437899, 254760293]

theorem prime_of_mem_qPredPrimes : ∀ r ∈ qPredPrimes, r.Prime := by
  simp only [qPredPrimes, List.forall_mem_cons]
  norm_num

/-- `q - 1 = 2^32 * 3 * 11 * ... * 906349^2 * ... * 254760293^2`, so it divides a power of the product of the list. -/
theorem q_pred_dvd_qPredPrimes_prod_pow : Config.q - 1 ∣ qPredPrimes.prod ^ Config.twoAdicity := by
  decide +kernel

/-- The list is complete: a prime factor of `q - 1` is one of its members. -/
theorem mem_qPredPrimes_of_dvd {r : ℕ} (hr : r.Prime) (hd : r ∣ Config.q - 1) : r ∈ qPredPrimes :=
  mem_list_primes_of_dvd_prod hr.prime (fun s hs => (prime_of_mem_qPredPrimes s hs).prime)
    (hr.dvd_of_dvd_pow (hd.trans q_pred_dvd_qPredPrimes_prod_pow))

/-- Fermat's equation for the generator 7. -/
theorem seven_pow_q_pred : ((7 : ℕ) : ZMod Config.q) ^ (Config.q - 1) = 1 := by
  rw [zmod_pow_eq_one_iff 7 Config.q (n := 255) (by decide)]
  decide +kernel

/-- 7 has no smaller order: its power to `(q - 1) / r` is not 1 for any prime factor `r` of `q - 1`. -/
theorem seven_pow_q_pred_div_ne_one :
    ∀ r ∈ qPredPrimes, ((7 : ℕ) : ZMod Config.q) ^ ((Config.q - 1) / r) ≠ 1 := by
  intro r hr
  have hlt : (Config.q - 1) / r < 2 ^ 255 := (Nat.div_le_self _ _).trans_lt (by decide)
  rw [Ne, zmod_pow_eq_one_iff 7 Config.q hlt]
  have hcheck : ∀ r ∈ qPredPrimes, natPowMod 7 Config.q 255 ((Config.q - 1) / r) % Config.q ≠ 1 % Config.q := by
    decide +kernel
  exact hcheck r hr

theorem q_prime : Config.q.Prime :=
  lucas_primality Config.q (7 : ℕ) seven_pow_q_pred
    fun r hr hd => seven_pow_q_pred_div_ne_one r (mem_qPredPrimes_of_dvd hr hd)

/-- Settles O7: primality by Lucas's test with the generator 7, the width by comparison of numerals. -/
theorem modulusIsPrime : Obligations.ModulusIsPrime :=
  ⟨q_prime, by decide, by decide⟩

end Sys2Proof.Machine
end

section
/-! The square that `sqr4` forms is exact (spec/40_limb_carry.md R107). -/

namespace Sys2Proof.Machine

/-- One limb of the left shift as a doubling with carry: the top bit of the limb below comes in, the limb's own goes
out (R107). -/
theorem shiftIn_toNat (hi lo : Word) :
    (shiftIn hi lo).toNat + hi.toNat / 2 ^ 63 * 2 ^ 64 = 2 * hi.toNat + lo.toNat / 2 ^ 63 := by
  have hhi := hi.isLt
  have hlo := lo.isLt
  have hbit : (lo.extractLsb' 63 1).toNat = lo.toNat / 2 ^ 63 := by
    rw [BitVec.extractLsb'_toNat, Nat.shiftRight_eq_div_pow]
    omega
  have hlow : (hi.extractLsb' 0 63).toNat = hi.toNat % 2 ^ 63 := by simp
  rw [shiftIn, BitVec.toNat_setWidth, BitVec.toNat_append, hbit, hlow, Nat.shiftLeft_eq, Nat.mul_comm,
    ← Nat.two_pow_add_eq_or_of_lt (by omega)]
  omega

/-! The limb equations of `sqr4`, summed in base `b` over plain numbers. -/

/-- A square by the digits of its root: the cross products twice and the diagonal terms once. -/
theorem four_digits_mul_self (x0 x1 x2 x3 b : Nat) :
    (x0 + x1 * b + x2 * b ^ 2 + x3 * b ^ 3) * (x0 + x1 * b + x2 * b ^ 2 + x3 * b ^ 3) =
      2 * (x0 * x1 * b + x0 * x2 * b ^ 2 + (x0 * x3 + x1 * x2) * b ^ 3 + x1 * x3 * b ^ 4 + x2 * x3 * b ^ 5) +
        (x0 * x0 + x1 * x1 * b ^ 2 + x2 * x2 * b ^ 4 + x3 * x3 * b ^ 6) := by
  ring

/-- The six cross-product steps. -/
theorem cross_products_sum {b r1 r2 r3 r4 r5 r6 s3 s4 s5 c1 c2 c3 m01 m02 m03 m12 m13 m23 : Nat}
    (h01 : r1 + c1 * b = m01) (h02 : r2 + c2 * b = m02 + c1) (h03 : s3 + s4 * b = m03 + c2)
    (h12 : r3 + c3 * b = s3 + m12) (h13 : r4 + s5 * b = s4 + m13 + c3) (h23 : r5 + r6 * b = s5 + m23) :
    r1 * b + r2 * b ^ 2 + r3 * b ^ 3 + r4 * b ^ 4 + r5 * b ^ 5 + r6 * b ^ 6 =
      m01 * b + m02 * b ^ 2 + (m03 + m12) * b ^ 3 + m13 * b ^ 4 + m23 * b ^ 5 := by
  zify at *
  linear_combination b * h01 + b ^ 2 * h02 + b ^ 3 * (h03 + h12) + b ^ 4 * h13 + b ^ 5 * h23

/-- The left shift over six limbs, whose last carry is the seventh. -/
theorem doubled_limbs_sum {b r1 r2 r3 r4 r5 r6 d1 d2 d3 d4 d5 d6 k1 k2 k3 k4 k5 k6 : Nat}
    (h1 : d1 + k1 * b = 2 * r1) (h2 : d2 + k2 * b = 2 * r2 + k1) (h3 : d3 + k3 * b = 2 * r3 + k2)
    (h4 : d4 + k4 * b = 2 * r4 + k3) (h5 : d5 + k5 * b = 2 * r5 + k4) (h6 : d6 + k6 * b = 2 * r6 + k5) :
    d1 * b + d2 * b ^ 2 + d3 * b ^ 3 + d4 * b ^ 4 + d5 * b ^ 5 + d6 * b ^ 6 + k6 * b ^ 7 =
      2 * (r1 * b + r2 * b ^ 2 + r3 * b ^ 3 + r4 * b ^ 4 + r5 * b ^ 5 + r6 * b ^ 6) := by
  zify at *
  linear_combination b * h1 + b ^ 2 * h2 + b ^ 3 * h3 + b ^ 4 * h4 + b ^ 5 * h5 + b ^ 6 * h6

/-- The eight steps that add the diagonal terms; the carry of the last is dropped by `sqr4`. -/
theorem diagonal_terms_sum
    {b d1 d2 d3 d4 d5 d6 d7 t0 t1 t2 t3 t4 t5 t6 t7 c0 c1 c2 c3 c4 c5 c6 c7 m0 m1 m2 m3 : Nat}
    (h0 : t0 + c0 * b = m0) (h1 : t1 + c1 * b = d1 + c0) (h2 : t2 + c2 * b = d2 + m1 + c1)
    (h3 : t3 + c3 * b = d3 + c2) (h4 : t4 + c4 * b = d4 + m2 + c3) (h5 : t5 + c5 * b = d5 + c4)
    (h6 : t6 + c6 * b = d6 + m3 + c5) (h7 : t7 + c7 * b = d7 + c6) :
    t0 + t1 * b + t2 * b ^ 2 + t3 * b ^ 3 + t4 * b ^ 4 + t5 * b ^ 5 + t6 * b ^ 6 + t7 * b ^ 7 + c7 * b ^ 8 =
      d1 * b + d2 * b ^ 2 + d3 * b ^ 3 + d4 * b ^ 4 + d5 * b ^ 5 + d6 * b ^ 6 + d7 * b ^ 7 +
        (m0 + m1 * b ^ 2 + m2 * b ^ 4 + m3 * b ^ 6) := by
  zify at *
  linear_combination h0 + b * h1 + b ^ 2 * h2 + b ^ 3 * h3 + b ^ 4 * h4 + b ^ 5 * h5 + b ^ 6 * h6 + b ^ 7 * h7

/-- Up to the carry that its last step drops, `sqr4` gives the square (R107). -/
theorem sqr4_toNat_add_carry (a : U256) : ∃ c : Nat, (sqr4 a).toNat + c * 2 ^ 512 = a.toNat * a.toNat := by
  simp only [sqr4, U512.toNat]
  have h01 := mac_toNat 0 a.l0 a.l1 0
  generalize mac 0 a.l0 a.l1 0 = p1 at h01 ⊢
  have h02 := mac_toNat 0 a.l0 a.l2 p1.2
  generalize mac 0 a.l0 a.l2 p1.2 = p2 at h02 ⊢
  have h03 := mac_toNat 0 a.l0 a.l3 p2.2
  generalize mac 0 a.l0 a.l3 p2.2 = p3 at h03 ⊢
  have h12 := mac_toNat p3.1 a.l1 a.l2 0
  generalize mac p3.1 a.l1 a.l2 0 = p4 at h12 ⊢
  have h13 := mac_toNat p3.2 a.l1 a.l3 p4.2
  generalize mac p3.2 a.l1 a.l3 p4.2 = p5 at h13 ⊢
  have h23 := mac_toNat p5.2 a.l2 a.l3 0
  generalize mac p5.2 a.l2 a.l3 0 = p6 at h23 ⊢
  have h0 := mac_toNat 0 a.l0 a.l0 0
  generalize mac 0 a.l0 a.l0 0 = q0 at h0 ⊢
  have h1 := adc_toNat 0 (shiftIn p1.1 0) q0.2
  generalize adc 0 (shiftIn p1.1 0) q0.2 = q1 at h1 ⊢
  have h2 := mac_toNat (shiftIn p2.1 p1.1) a.l1 a.l1 q1.2
  generalize mac (shiftIn p2.1 p1.1) a.l1 a.l1 q1.2 = q2 at h2 ⊢
  have h3 := adc_toNat 0 (shiftIn p4.1 p2.1) q2.2
  generalize adc 0 (shiftIn p4.1 p2.1) q2.2 = q3 at h3 ⊢
  have h4 := mac_toNat (shiftIn p5.1 p4.1) a.l2 a.l2 q3.2
  generalize mac (shiftIn p5.1 p4.1) a.l2 a.l2 q3.2 = q4 at h4 ⊢
  have h5 := adc_toNat 0 (shiftIn p6.1 p5.1) q4.2
  generalize adc 0 (shiftIn p6.1 p5.1) q4.2 = q5 at h5 ⊢
  have h6 := mac_toNat (shiftIn p6.2 p6.1) a.l3 a.l3 q5.2
  generalize mac (shiftIn p6.2 p6.1) a.l3 a.l3 q5.2 = q6 at h6 ⊢
  have h7 := adc_toNat 0 (shiftIn 0 p6.2) q6.2
  generalize adc 0 (shiftIn 0 p6.2) q6.2 = q7 at h7 ⊢
  have hcarry : (shiftIn 0 p6.2).toNat = p6.2.toNat / 2 ^ 63 := by simpa using shiftIn_toNat 0 p6.2
  simp only [zero_toNat, Nat.zero_add, Nat.add_zero, hcarry] at h01 h02 h03 h12 h13 h23 h0 h1 h2 h3 h4 h5 h6 h7
  have sum := diagonal_terms_sum h0 h1 h2 h3 h4 h5 h6 h7
  rw [doubled_limbs_sum (shiftIn_toNat p1.1 0) (shiftIn_toNat p2.1 p1.1) (shiftIn_toNat p4.1 p2.1)
      (shiftIn_toNat p5.1 p4.1) (shiftIn_toNat p6.1 p5.1) (shiftIn_toNat p6.2 p6.1),
    cross_products_sum h01 h02 h03 h12 h13 h23, ← four_digits_mul_self] at sum
  simp only [← pow_mul, Nat.reduceMul] at sum
  exact ⟨q7.2.toNat, sum⟩

/-- `sqr4` gives the exact square (R107): the dropped carry is zero, since the square of four limbs fits in eight. -/
theorem sqr4_toNat (a : U256) : (sqr4 a).toNat = a.toNat * a.toNat := by
  obtain ⟨c, hc⟩ := sqr4_toNat_add_carry a
  have hlt : a.toNat * a.toNat < 2 ^ 256 * 2 ^ 256 := Nat.mul_lt_mul'' a.toNat_lt a.toNat_lt
  omega

end Sys2Proof.Machine
end

section
/-! On reduced operands every datapath operation and every engine gives a reduced value (spec/10_state.md R22). -/

namespace Sys2Proof.Machine

/-! The datapath (spec/42_ring_ops.md R142 to R146). -/

theorem reduced_zero : reduced U256.zero := by decide

theorem reduced_rOne : reduced Config.rOne := by decide

theorem reduced_r2 : reduced Config.r2 := by decide

theorem negMod_is_reduced {a : U256} (ha : reduced a) : reduced (negMod a) := by
  rw [reduced, negMod_reduced ha]
  exact Nat.mod_lt _ q_pos

theorem addMod_is_reduced {a b : U256} (ha : reduced a) (hb : reduced b) : reduced (addMod a b) := by
  rw [reduced, addMod_reduced ha hb]
  exact Nat.mod_lt _ q_pos

theorem subMod_is_reduced {a b : U256} (ha : reduced a) (hb : reduced b) : reduced (subMod a b) := by
  rw [reduced, subMod_reduced ha hb]
  exact Nat.mod_lt _ q_pos

theorem montSqr_is_reduced {a : U256} (ha : reduced a) : reduced (montSqr a) :=
  redc_reduced (by rw [sqr4_toNat]; exact mul_lt_of_reduced_left ha)

/-! The engines (spec/43_exponentiation.md R170, R171; spec/44_inversion.md R191; spec/45_sqrt.md R200). -/

/-- One round of square-and-multiply keeps the accumulator reduced, whatever the base. -/
theorem squareMultiply_is_reduced {acc : U256} (b : U256) (bit : Bool) (h : reduced acc) :
    reduced (if bit then montMul (montSqr acc) b else montSqr acc) := by
  split
  · exact montMul_reduced (.inl (montSqr_is_reduced h))
  · exact montSqr_is_reduced h

theorem powCtLoop_is_reduced (b e : U256) (n : Nat) {acc : U256} (h : reduced acc) :
    reduced (powCtLoop b e n acc) := by
  induction n generalizing acc with
  | zero => exact h
  | succ n ih =>
    rw [powCtLoop_succ]
    exact ih (squareMultiply_is_reduced b (e.bit n) h)

theorem powVtLoop_is_reduced (b e : U256) (n : Nat) {acc : U256} (h : reduced acc) :
    reduced (powVtLoop b e n acc) := by
  induction n generalizing acc with
  | zero => exact h
  | succ n ih =>
    rw [powVtLoop_succ]
    exact ih (squareMultiply_is_reduced b (e.bit n) h)

theorem powCt_is_reduced (b e : U256) : reduced (powCt b e) := by
  rw [powCt]
  exact powCtLoop_is_reduced b e 256 reduced_rOne

theorem powVt_is_reduced (b e : U256) : reduced (powVt b e) := by
  rw [powVt]
  exact powVtLoop_is_reduced b e 256 reduced_rOne

theorem sqrtUpdate_r_is_reduced {v : SqrtVars} (i : Nat) (h : reduced v.r) : reduced (sqrtUpdate v i).r := by
  rw [sqrtUpdate_eq]
  exact montMul_reduced (.inl h)

/-- The refinement loop multiplies `r` only, so the root it ends with is reduced when the first `r` is (R200). -/
theorem sqrtLoop_root_is_reduced {fuel : Nat} {v : SqrtVars} {r : U256} (hv : reduced v.r)
    (h : sqrtLoop fuel v = some r) : reduced r := by
  have done {fuel : Nat} {v : SqrtVars} (hv : reduced v.r) (hw : v.w = Config.rOne) (h : sqrtLoop fuel v = some r) :
      reduced r := by
    rw [sqrtLoop_done fuel hw] at h
    exact Option.some.inj h ▸ hv
  induction fuel generalizing v with
  | zero =>
    by_cases hw : v.w = Config.rOne
    · exact done hv hw h
    · simp [sqrtLoop, ctEq_eq_decide, hw] at h
  | succ fuel ih =>
    by_cases hw : v.w = Config.rOne
    · exact done hv hw h
    · cases hi : orderSearch Config.twoAdicity 1 (montSqr v.w) with
      | none => simp [sqrtLoop, sqrtRound, ctEq_eq_decide, hw, hi] at h
      | some i =>
        rw [sqrtLoop_round hw hi] at h
        exact ih (sqrtUpdate_r_is_reduced i hv) h

theorem sqrtVtWith_root_is_reduced {root a v : U256} (ha : reduced a) (h : sqrtVtWith root a = .root v) :
    reduced v := by
  rw [sqrtVtWith_eq] at h
  split_ifs at h with hzero hone
  · exact SqrtResult.root.inj h ▸ ha
  · have hv : reduced (powVt a Config.expTp1h) := powVt_is_reduced a Config.expTp1h
    generalize powVt a Config.expTp1h = r at h hv
    generalize powVt a Config.expT = w at h
    cases hr : sqrtLoop Config.twoAdicity ⟨root, r, w, Config.twoAdicity⟩ with
    | none => rw [hr] at h; cases h
    | some u =>
      rw [hr] at h
      exact SqrtResult.root.inj h ▸ sqrtLoop_root_is_reduced hv hr

end Sys2Proof.Machine
end

section
/-! What a command and a host event can do, said once, with the constructor naming the case (spec/10_state.md R20, R23;
spec/20_memory.md R51 to R56). -/

namespace Sys2Proof.Machine

/-- Every element register is reduced (spec/10_state.md R22). -/
def reducedRegs (s : State) : Prop := ∀ i : FReg, reduced (readF s i)

/-- The updates a command that completes can have made to the state `s`. A command writes at most one register, with a
value that is reduced when the registers are (R22); `EQ` alone writes `STATUS.EQ` (R27), `DEC` and `SQRT` alone
`STATUS.NONE` (R28). -/
inductive CommandEffect (s : State) : Instr → State → Prop where
  | writeReg {i : Instr} {rd : FReg} {v : U256} (hv : reducedRegs s → reduced v) : CommandEffect s i (writeF s rd v)
  | dec {rd : FReg} {v : U256} (hv : reduced v) : CommandEffect s (.dec rd) (setNone (writeF s rd v) false)
  | decNone {rd : FReg} : CommandEffect s (.dec rd) (setNone s true)
  | sqrt {rd ra : FReg} {v : U256} (hv : reducedRegs s → reduced v) :
      CommandEffect s (.sqrt rd ra) (setNone (writeF s rd v) false)
  | sqrtNone {rd ra : FReg} : CommandEffect s (.sqrt rd ra) (setNone s true)
  | enc {ra : FReg} {v : U256} : CommandEffect s (.enc ra) (writeDataAll s v)
  | eq {ra rb : FReg} {b : Bool} : CommandEffect s (.eq ra rb) (setEq s b)

theorem exec_effect {i : Instr} {s t : State} (h : exec i s = .next t) : CommandEffect s i t := by
  cases i with
  | zero rd => cases h; exact .writeReg fun _ => reduced_zero
  | one rd => cases h; exact .writeReg fun _ => reduced_rOne
  | fromu64 rd => cases h; exact .writeReg fun _ => montMul_reduced (.inr reduced_r2)
  | dec rd =>
    rw [exec_dec, execDec_eq] at h
    split at h
    · cases h; exact .dec (montMul_reduced (.inr reduced_r2))
    · cases h; exact .decNone
  | enc ra => cases h; exact .enc
  | neg rd ra => cases h; exact .writeReg fun hs => negMod_is_reduced (hs ra)
  | add rd ra rb => cases h; exact .writeReg fun hs => addMod_is_reduced (hs ra) (hs rb)
  | sub rd ra rb => cases h; exact .writeReg fun hs => subMod_is_reduced (hs ra) (hs rb)
  | mul rd ra rb => cases h; exact .writeReg fun hs => montMul_reduced (.inl (hs ra))
  | sqr rd ra => cases h; exact .writeReg fun hs => montSqr_is_reduced (hs ra)
  | powc rd ra => cases h; exact .writeReg fun _ => powCt_is_reduced (readF s ra) (exponentOperand s)
  | powv rd ra => cases h; exact .writeReg fun _ => powVt_is_reduced (readF s ra) (exponentOperand s)
  | inv rd ra => cases h; exact .writeReg fun _ => powCt_is_reduced (readF s ra) Config.expQm2
  | sqrt rd ra =>
    rw [exec_sqrt] at h
    rcases execSqrt_cases h with ⟨v, hv, rfl⟩ | ⟨_, rfl⟩
    · exact .sqrt fun hs => sqrtVtWith_root_is_reduced (hs ra) hv
    · exact .sqrtNone
  | eq ra rb => cases h; exact .eq
  | sel rd ra rb =>
    rw [exec_sel, execSel_eq] at h
    cases h
    refine .writeReg fun hs => ?_
    split
    · exact hs rb
    · exact hs ra

/-! The frame of a command, read off its effect. -/

theorem CommandEffect.ill_eq {i : Instr} {s t : State} (h : CommandEffect s i t) : t.ill = s.ill := by
  cases h <;> rfl

theorem CommandEffect.cause_eq {i : Instr} {s t : State} (h : CommandEffect s i t) : t.cause = s.cause := by
  cases h <;> rfl

/-- A register write of a reduced value keeps the registers reduced. -/
theorem reducedRegs_writeF {s : State} {rd : FReg} {v : U256} (hs : reducedRegs s) (hv : reduced v) :
    reducedRegs (writeF s rd v) := by
  intro j
  rw [readF_writeF]
  split
  · exact hv
  · exact hs j

theorem CommandEffect.keeps_reducedRegs {i : Instr} {s t : State} (h : CommandEffect s i t) (hs : reducedRegs s) :
    reducedRegs t := by
  cases h with
  | writeReg hv => exact reducedRegs_writeF hs (hv hs)
  | dec hv => exact reducedRegs_writeF hs hv
  | decNone => exact hs
  | sqrt hv => exact reducedRegs_writeF hs (hv hs)
  | sqrtNone => exact hs
  | enc => exact hs
  | eq => exact hs

/-! Host events. -/

/-- The effect of a host event that the block accepts: a reset, a read or a write of a register of the window, a command,
or the record of an illegal one (spec/20_memory.md R52 to R56). -/
inductive EventEffect (s : State) : HostEvent → State → Prop where
  | reset : EventEffect s .reset (resetBlock s)
  | read (r : WinReg) : EventEffect s (hostRd r) (reply s (memRead s r))
  | writeData (i : Fin 4) (v : Word) : EventEffect s (hostWr (.data i) v) (writeData s i v)
  | writeStatus (v : Word) : EventEffect s (hostWr .status v) s
  | command {v : Word} {i : Instr} {t : State} (hd : decode v = .cmd i) (he : exec i s = .next t) :
      EventEffect s (hostWr .cmd v) t
  | illegal {v : Word} {c : Cause} (hd : decode v = .illegal c) : EventEffect s (hostWr .cmd v) (raiseIllegal c s)

/-- The register an offset reaches has that offset (R50). -/
theorem offset_of_winRegAt {offset : Int} {r : WinReg} (h : winRegAt offset = some r) : offset = winOffset r := by
  unfold winRegAt at h
  split_ifs at h <;> cases h <;> assumption

theorem memWrite_effect {r : WinReg} {v : Word} {s t : State} (h : memWrite s r v = .next t) :
    EventEffect s (hostWr r v) t := by
  cases r with
  | data i => cases h; exact .writeData i v
  | status => cases h; exact .writeStatus v
  | cmd =>
    cases hd : decode v with
    | cmd i => exact .command hd (memWrite_cmd_of_cmd s hd ▸ h)
    | illegal c =>
      rw [memWrite_cmd_of_illegal s hd] at h
      cases h
      exact .illegal hd

/-- An access that is accepted is the host's read or write of a register of the window (R51, R52). -/
theorem acceptAccess_effect {a : Access} {s t : State} (h : acceptAccess a s = .next t) :
    EventEffect s (.access a) t := by
  obtain ⟨kind, offset, width⟩ := a
  unfold acceptAccess at h
  split at h
  · cases h
  split at h
  · cases h
  next hwidth _ =>
    obtain rfl : width = 8 := not_not.mp hwidth
    split at h
    · cases h
    next r hr =>
      obtain rfl := offset_of_winRegAt hr
      cases kind with
      | read => cases h; exact .read r
      | write v => exact memWrite_effect h

theorem acceptEvent_effect {e : HostEvent} {s t : State} (h : acceptEvent e s = .next t) : EventEffect s e t := by
  cases e with
  | access a => exact acceptAccess_effect h
  | reset => cases h; exact .reset

/-- The effect of an event is what accepting it gives. -/
theorem EventEffect.acceptEvent_eq {e : HostEvent} {s t : State} (h : EventEffect s e t) :
    acceptEvent e s = .next t := by
  cases h with
  | reset => rfl
  | read r => exact acceptEvent_hostRd r s
  | writeData i v => exact acceptEvent_hostWr (.data i) v s
  | writeStatus v => exact acceptEvent_hostWr .status v s
  | command hd he => rw [acceptEvent_hostWr, memWrite_cmd_of_cmd s hd, he]
  | illegal hd => rw [acceptEvent_hostWr, memWrite_cmd_of_illegal s hd]

/-- Everything a step that answers a next state can have done: nothing without a host event, else the effect of the
oldest one (spec/10_state.md R20; spec/60_exceptions.md R252). -/
theorem step_effect {s t : State} (h : step s = .next t) :
    (s.inbox = [] ∧ t = s) ∨ ∃ e rest, s.inbox = e :: rest ∧ EventEffect (setInbox s rest) e t := by
  cases hin : s.inbox with
  | nil =>
    rw [step_idle hin] at h
    cases h
    exact .inl ⟨rfl, rfl⟩
  | cons e rest =>
    rw [step_event hin] at h
    exact .inr ⟨e, rest, rfl, acceptEvent_effect h⟩

end Sys2Proof.Machine
end

section
/-! The invariant of the block (spec/10_state.md R22, R26, R37; spec/60_exceptions.md R242). -/

namespace Sys2Proof.Machine

theorem inv_of_reset_fields {s : State} (hf : ∀ i, readF s i = U256.zero) (hill : s.ill = false)
    (hcause : s.cause = 0) : s.Inv where
  reducedF i := hf i ▸ reduced_zero
  causeLegal := by rw [hcause]; decide
  causeZero := by simp [hill, hcause]

theorem inv_resetBlock (s : State) : (resetBlock s).Inv := inv_of_reset_fields (readF_resetBlock s) rfl rfl

/-- The invariant reads the registers, `ILL` and `CAUSE` only. -/
theorem State.Inv.of_frame {s t : State} (hs : s.Inv) (hf : reducedRegs t) (hill : t.ill = s.ill)
    (hcause : t.cause = s.cause) : t.Inv where
  reducedF := hf
  causeLegal := hcause ▸ hs.causeLegal
  causeZero := by rw [hcause, hill]; exact hs.causeZero

/-- A cause code is one of 1 to 4 (R242). -/
theorem causeCode_range (c : Cause) : causeCode c ≠ 0 ∧ (causeCode c).toNat ≤ 4 := by
  cases c <;> decide

theorem inv_raiseIllegal {s : State} (hs : s.Inv) (c : Cause) : (raiseIllegal c s).Inv where
  reducedF := hs.reducedF
  causeLegal := (causeCode_range c).2
  causeZero := by simpa using (causeCode_range c).1

theorem EventEffect.inv {e : HostEvent} {s t : State} (h : EventEffect s e t) (hs : s.Inv) : t.Inv := by
  cases h with
  | reset => exact inv_resetBlock s
  | read r => exact hs.of_frame hs.reducedF rfl rfl
  | writeData i v => exact hs.of_frame hs.reducedF rfl rfl
  | writeStatus v => exact hs
  | command hd he =>
    have effect := exec_effect he
    exact hs.of_frame (effect.keeps_reducedRegs hs.reducedF) effect.ill_eq effect.cause_eq
  | illegal hd => exact inv_raiseIllegal hs _

/-- Settles O47, by the cases of what a step can do. -/
theorem stepKeepsInvariant : Obligations.StepKeepsInvariant := by
  unfold Obligations.StepKeepsInvariant
  intro s t hs h
  rcases step_effect h with ⟨_, rfl⟩ | ⟨e, rest, _, effect⟩
  · exact hs
  · have hinbox : (setInbox s rest).Inv := hs.of_frame hs.reducedF rfl rfl
    exact effect.inv hinbox

/-- Settles O46: the reset values meet the invariant. -/
theorem resetMeetsInvariant : Obligations.ResetMeetsInvariant :=
  inv_of_reset_fields readF_reset rfl rfl

end Sys2Proof.Machine
end

section
/-! Who writes and who reads the fields of `STATUS` and the element registers (spec/10_state.md R23, R27, R28, R29). -/

namespace Sys2Proof.Machine

/-! `ILL` and `CAUSE` (R29). -/

/-- An event that is neither a reset nor an illegal command leaves `ILL` and `CAUSE`; an illegal command sets `ILL`. -/
theorem EventEffect.ill_cases {e : HostEvent} {s t : State} (h : EventEffect s e t) (he : e ≠ .reset) :
    (t.ill = s.ill ∧ t.cause = s.cause) ∨ (t.ill = true ∧ ∃ v c, e = hostWr .cmd v ∧ decode v = .illegal c) := by
  cases h with
  | reset => exact absurd rfl he
  | read r => exact .inl ⟨rfl, rfl⟩
  | writeData i v => exact .inl ⟨rfl, rfl⟩
  | writeStatus v => exact .inl ⟨rfl, rfl⟩
  | command hd he => exact .inl ⟨(exec_effect he).ill_eq, (exec_effect he).cause_eq⟩
  | illegal hd => exact .inr ⟨rfl, _, _, rfl, hd⟩

/-- Settles O48, by the cases of what a step can do. -/
theorem illIsStickyAndWrittenByIllegalCommandsOnly :
    Obligations.IllIsStickyAndWrittenByIllegalCommandsOnly := by
  unfold Obligations.IllIsStickyAndWrittenByIllegalCommandsOnly
  intro s t h hreset
  rcases step_effect h with ⟨_, rfl⟩ | ⟨e, rest, hin, effect⟩
  · exact ⟨id, by simp⟩
  · have he : e ≠ .reset := fun he => hreset rest (he ▸ hin)
    rcases effect.ill_cases he with ⟨hill, hcause⟩ | ⟨hill, v, c, rfl, hd⟩
    · simp only [setInbox_ill, setInbox_cause] at hill hcause
      exact ⟨fun hs => hill.trans hs, by simp [hill, hcause]⟩
    · exact ⟨fun _ => hill, fun _ => ⟨v, c, rest, hin, hd⟩⟩

/-! `EQ` (R27). -/

theorem CommandEffect.eqFlag_eq {i : Instr} {s t : State} (h : CommandEffect s i t) (hi : ∀ ra rb, i ≠ .eq ra rb) :
    t.eqFlag = s.eqFlag := by
  cases h with
  | eq => exact absurd rfl (hi _ _)
  | writeReg | dec | decNone | sqrt | sqrtNone | enc => rfl

/-- What `SQRT` writes at each end of its engine leaves `STATUS.EQ` alone. -/
theorem finishSqrt_setEq {rd : FReg} {s t : State} {r : SqrtResult} (b : Bool) (h : finishSqrt rd s r = .next t) :
    finishSqrt rd (setEq s b) r = .next (setEq t b) := by
  cases r with
  | root v => cases h; rfl
  | noValue => cases h; rfl
  | diverges => cases h

/-- A command other than `EQ` and `SEL` does the same whatever `STATUS.EQ` holds. -/
theorem exec_setEq {i : Instr} {s t : State} (b : Bool) (heq : ∀ ra rb, i ≠ .eq ra rb)
    (hsel : ∀ rd ra rb, i ≠ .sel rd ra rb) (h : exec i s = .next t) : exec i (setEq s b) = .next (setEq t b) := by
  cases i with
  | eq ra rb => exact absurd rfl (heq ra rb)
  | sel rd ra rb => exact absurd rfl (hsel rd ra rb)
  | sqrt rd ra =>
    rw [exec_sqrt, execSqrt] at h ⊢
    exact finishSqrt_setEq b h
  | dec rd =>
    rw [exec_dec, execDec_eq] at h ⊢
    cases h
    rw [dataV_setEq]
    split <;> rfl
  | zero | one | fromu64 | enc | neg | add | sub | mul | sqr | powc | powv | inv => cases h; rfl

/-- Settles O49: the write half by the effect of a command, the read half by its meaning. -/
theorem eqFlagIsPrivateToEqAndSel : Obligations.EqFlagIsPrivateToEqAndSel := by
  unfold Obligations.EqFlagIsPrivateToEqAndSel
  refine ⟨fun i s t hi h => (exec_effect h).eqFlag_eq hi, fun i s t b heq hsel h => exec_setEq b heq hsel h,
    fun ra rb s b => ?_, fun s c => raiseIllegal_eqFlag s c⟩
  rw [exec_eq, exec_eq, execEq_eq, execEq_eq]
  rfl

/-! `NONE` (R28). -/

theorem CommandEffect.noneFlag_eq {i : Instr} {s t : State} (h : CommandEffect s i t) (hdec : ∀ rd, i ≠ .dec rd)
    (hsqrt : ∀ rd ra, i ≠ .sqrt rd ra) : t.noneFlag = s.noneFlag := by
  cases h with
  | dec | decNone => exact absurd rfl (hdec _)
  | sqrt | sqrtNone => exact absurd rfl (hsqrt _ _)
  | writeReg | enc | eq => rfl

theorem exec_dec_setNone (rd : FReg) (s : State) (b : Bool) : exec (.dec rd) (setNone s b) = exec (.dec rd) s := by
  rw [exec_dec, exec_dec, execDec_eq, execDec_eq, dataV_setNone]
  rfl

theorem finishSqrt_setNone (rd : FReg) (s : State) (b : Bool) (r : SqrtResult) :
    finishSqrt rd (setNone s b) r = finishSqrt rd s r := by
  cases r <;> rfl

theorem exec_sqrt_setNone (rd ra : FReg) (s : State) (b : Bool) :
    exec (.sqrt rd ra) (setNone s b) = exec (.sqrt rd ra) s := by
  rw [exec_sqrt, exec_sqrt, execSqrt, execSqrt, readF_setNone, finishSqrt_setNone]

/-- `DEC` writes `NONE = 1` exactly when the data buffer is not canonical (spec/41_representation.md R124). -/
theorem noneFlag_of_exec_dec {rd : FReg} {s t : State} (h : exec (.dec rd) s = .next t) :
    t.noneFlag = true ↔ Config.q ≤ (dataV s).toNat := by
  rw [exec_dec, execDec_eq] at h
  cases h
  rw [← Nat.not_lt]
  split <;> simp [*]

/-- `SQRT` writes `NONE = 1` exactly when its engine has no value (spec/45_sqrt.md R201). -/
theorem noneFlag_of_exec_sqrt {rd ra : FReg} {s t : State} (h : exec (.sqrt rd ra) s = .next t) :
    t.noneFlag = true ↔ sqrtVt (readF s ra) = .noValue := by
  rw [exec_sqrt] at h
  rcases execSqrt_cases h with ⟨v, hv, rfl⟩ | ⟨hv, rfl⟩ <;> simp [hv]

/-- Settles O50: the other commands by their effect, `DEC` and `SQRT` by their meanings. -/
theorem noneFlagIsWrittenByDecAndSqrtOnly : Obligations.NoneFlagIsWrittenByDecAndSqrtOnly := by
  unfold Obligations.NoneFlagIsWrittenByDecAndSqrtOnly
  exact ⟨fun i s t hdec hsqrt h => (exec_effect h).noneFlag_eq hdec hsqrt,
    fun rd ra s b => ⟨exec_dec_setNone rd s b, exec_sqrt_setNone rd ra s b⟩,
    fun rd s t h => noneFlag_of_exec_dec h, fun rd ra s t h => noneFlag_of_exec_sqrt h,
    fun s c => raiseIllegal_noneFlag s c⟩

/-! The element registers (R23). -/

/-- An event that is neither a reset nor a legal command leaves every element register. -/
theorem EventEffect.regs_cases {e : HostEvent} {s t : State} (h : EventEffect s e t) :
    sameRegs s t ∨ (∃ v i, e = hostWr .cmd v ∧ decode v = .cmd i) ∨ e = .reset := by
  cases h with
  | reset => exact .inr (.inr rfl)
  | command hd he => exact .inr (.inl ⟨_, _, rfl, hd⟩)
  | read r => exact .inl fun _ => rfl
  | writeData i v => exact .inl fun _ => rfl
  | writeStatus v => exact .inl fun _ => rfl
  | illegal hd => exact .inl fun _ => rfl

/-- The two states agree on everything but their element registers (R23). -/
def sameButRegs (s t : State) : Prop :=
  t.replies = s.replies ∧ sameData s t ∧ sameStatus s t ∧ t.inbox = s.inbox

/-- A host read returns what it returns whatever the element registers hold (spec/20_memory.md R53, R55, R56). -/
theorem memRead_setRegs (s : State) (regs : Vector U256 16) (r : WinReg) :
    memRead { s with f := regs } r = memRead s r := by
  cases r <;> rfl

/-- On an event that is no write to `CMD`, states that differ in the element registers alone do the same but for
those. -/
theorem EventEffect.setRegs {e : HostEvent} {s t : State} (h : EventEffect s e t) (he : ∀ v, e ≠ hostWr .cmd v)
    (regs : Vector U256 16) : ∃ u, EventEffect { s with f := regs } e u ∧ sameButRegs t u := by
  cases h with
  | reset => exact ⟨_, .reset, rfl, fun _ => rfl, ⟨rfl, rfl, rfl, rfl⟩, rfl⟩
  | read r =>
    refine ⟨_, .read r, ?_, fun _ => rfl, ⟨rfl, rfl, rfl, rfl⟩, rfl⟩
    rw [memRead_setRegs]
    rfl
  | writeData i v => exact ⟨_, .writeData i v, rfl, fun _ => rfl, ⟨rfl, rfl, rfl, rfl⟩, rfl⟩
  | writeStatus v => exact ⟨_, .writeStatus v, rfl, fun _ => rfl, ⟨rfl, rfl, rfl, rfl⟩, rfl⟩
  | command => exact absurd rfl (he _)
  | illegal => exact absurd rfl (he _)

/-- The write half of R23. -/
theorem step_changing_regs {s t : State} (h : step s = .next t) (hregs : ¬ sameRegs s t) :
    (∃ v i rest, s.inbox = hostWr .cmd v :: rest ∧ decode v = .cmd i) ∨ (∃ rest, s.inbox = .reset :: rest) := by
  rcases step_effect h with ⟨_, rfl⟩ | ⟨e, rest, hin, effect⟩
  · exact absurd (fun _ => rfl) hregs
  · rcases effect.regs_cases with hsame | ⟨v, i, rfl, hd⟩ | rfl
    · exact absurd hsame hregs
    · exact .inl ⟨v, i, rest, hin, hd⟩
    · exact .inr ⟨rest, hin⟩

/-- The read half of R23. -/
theorem step_setRegs {s t : State} (regs : Vector U256 16) (hcmd : ∀ v rest, s.inbox ≠ hostWr .cmd v :: rest)
    (h : step s = .next t) : ∃ u, step { s with f := regs } = .next u ∧ sameButRegs t u := by
  rcases step_effect h with ⟨hin, rfl⟩ | ⟨e, rest, hin, effect⟩
  · exact ⟨_, step_idle hin, rfl, fun _ => rfl, ⟨rfl, rfl, rfl, rfl⟩, rfl⟩
  · have he : ∀ v, e ≠ hostWr .cmd v := fun v he => hcmd v rest (he ▸ hin)
    obtain ⟨u, hu, hsame⟩ := effect.setRegs he regs
    exact ⟨u, (step_event (s := { s with f := regs }) hin).trans hu.acceptEvent_eq, hsame⟩

/-- Settles O51, its two halves by the cases of what a step can do. -/
theorem onlyCommandsReachElementRegisters : Obligations.OnlyCommandsReachElementRegisters := by
  unfold Obligations.OnlyCommandsReachElementRegisters
  exact ⟨fun s t h hregs => step_changing_regs h hregs, fun s t regs hcmd h => step_setRegs regs hcmd h⟩

end Sys2Proof.Machine
end

section
/-! The constants of the ROM (spec/10_state.md R33 to R35), the bytes of the data buffer (R25) and the reset values
(R37). -/

namespace Sys2Proof.Machine

/-- The condition of R34 by repeated squaring, which the kernel can evaluate. -/
theorem primitiveRoot_of_squareMod {c : U256} (hc : reduced c) (h32 : squareMod 32 (val c) % Config.q = 1)
    (h31 : squareMod 31 (val c) % Config.q = Config.q - 1) : primitiveRoot c := by
  rw [squareMod_eq] at h32 h31
  exact ⟨hc, h32, h31⟩

/-- Settles O9: 32 and 31 squarings of the logical value, evaluated. -/
theorem rootOfUnityIsPrimitive : Obligations.RootOfUnityIsPrimitive :=
  primitiveRoot_of_squareMod (by decide) (by decide +kernel) (by decide +kernel)

/-- The fixed exponents of R35 are derived from `q`. -/
theorem exponents_toNat : Config.expQm2.toNat = Config.q - 2 ∧ Config.expLeg.toNat = (Config.q - 1) / 2 ∧
    Config.expTp1h.toNat = (Config.expT.toNat + 1) / 2 := by
  decide

/-- `t` is the odd part of `q - 1`, and `S` its 2-adicity (R33, R35). -/
theorem q_pred_eq_expT_mul : Config.q - 1 = Config.expT.toNat * 2 ^ Config.twoAdicity ∧ Config.expT.toNat % 2 = 1 := by
  decide

/-- `INV = -q^-1 mod 2^64` (R33). -/
theorem modulus_mul_inv : Config.modulus.l0 * Config.inv = limbMax := by
  decide

/-- Settles O8: each constant by its own law. -/
theorem constantRomMeetsDefinitions : Obligations.ConstantRomMeetsDefinitions := by
  unfold Obligations.ConstantRomMeetsDefinitions
  obtain ⟨hQm2, hLeg, hTp1h⟩ := exponents_toNat
  obtain ⟨hT, hOdd⟩ := q_pred_eq_expT_mul
  exact ⟨modulus_toNat, rOne_toNat, r2_toNat, modulus_mul_inv, hT, hOdd, hQm2, hLeg, hTp1h⟩

/-- A word is the little-endian sum of its eight byte lanes (spec/20_memory.md R57). -/
theorem sum_byteLane (v : Word) : ∑ k : Fin 8, (byteLane v k.val).toNat * 256 ^ k.val = v.toNat := by
  have hlane (k : Nat) : (byteLane v k).toNat = v.toNat / 2 ^ (8 * k) % 2 ^ 8 := by
    rw [byteLane, BitVec.extractLsb'_toNat, Nat.shiftRight_eq_div_pow]
  have hv := v.isLt
  rw [Fin.sum_univ_eq_sum_range fun k => (byteLane v k).toNat * 256 ^ k]
  simp only [hlane, Finset.sum_range_succ, Finset.sum_range_zero]
  omega

/-- Byte `k` of word `i` is byte `k + 8 * i` of the data buffer (R25, R57). -/
theorem dataByte_finProdFinEquiv (s : State) (i : Fin 4) (k : Fin 8) :
    dataByte s (finProdFinEquiv (i, k)) = byteLane (readData s i) k.val := by
  have hval : (finProdFinEquiv (i, k)).val = k.val + 8 * i.val := rfl
  have hdiv : (⟨(finProdFinEquiv (i, k)).val / 8, by omega⟩ : Fin 4) = i := Fin.ext (by simp only [hval]; omega)
  have hmod : (finProdFinEquiv (i, k)).val % 8 = k.val := by rw [hval]; omega
  rw [dataByte, hdiv, hmod]

/-- `DATAV` is the sum of its words in base `2^64` (R25). -/
theorem dataV_eq_sum_words (s : State) : (dataV s).toNat = ∑ i : Fin 4, (readData s i).toNat * 256 ^ (8 * i.val) := by
  simp only [dataV, U256.toNat, Fin.sum_univ_four]
  norm_num

/-- A sum over the 32 bytes is the sum over the words of the sums over their bytes. -/
theorem sum_bytes_eq_sum_words (f : Fin 32 → Nat) :
    ∑ j, f j = ∑ i : Fin 4, ∑ k : Fin 8, f (finProdFinEquiv (i, k)) := by
  rw [← Fintype.sum_prod_type fun p => f (finProdFinEquiv (m := 4) (n := 8) p)]
  exact ((finProdFinEquiv (m := 4) (n := 8)).sum_comp f).symm

/-- Settles O44: the bytes summed word by word, each word by its own byte lanes. -/
theorem dataBufferIsLittleEndianBytes : Obligations.DataBufferIsLittleEndianBytes := by
  unfold Obligations.DataBufferIsLittleEndianBytes
  intro s
  rw [dataV_eq_sum_words, sum_bytes_eq_sum_words]
  refine Finset.sum_congr rfl fun i _ => ?_
  rw [← sum_byteLane, Finset.sum_mul]
  refine Finset.sum_congr rfl fun k _ => ?_
  rw [dataByte_finProdFinEquiv, finProdFinEquiv_apply_val, pow_add, mul_assoc]

/-- Settles O43: the fields of the reset state are written out. -/
theorem resetStateIsAllZero : Obligations.ResetStateIsAllZero := by
  unfold Obligations.ResetStateIsAllZero
  refine ⟨readF_reset, fun i => ?_, by decide, rfl, rfl, rfl, rfl⟩
  simp [readData, State.reset]

end Sys2Proof.Machine
end

section
/-! The field element a stored representative stands for, in `ZMod q` (spec/00_scope.md R12), and what the multiplier and
the exponentiation engine do to it (spec/42_ring_ops.md R142, R143; spec/43_exponentiation.md R171). -/

namespace Sys2Proof.Machine

/-- The logical value of a representative as an element of `ZMod q`. -/
def fieldVal (v : U256) : ZMod Config.q := (val v : ZMod Config.q)

theorem fieldVal_eq_iff {v w : U256} : fieldVal v = fieldVal w ↔ val v = val w := by
  rw [fieldVal, fieldVal, ZMod.natCast_eq_natCast_iff', Nat.mod_eq_of_lt (val_lt v), Nat.mod_eq_of_lt (val_lt w)]

theorem fieldVal_inj {v w : U256} (hv : reduced v) (hw : reduced w) : fieldVal v = fieldVal w ↔ v = w :=
  ⟨fun h => val_inj hv hw (fieldVal_eq_iff.mp h), fun h => h ▸ rfl⟩

/-- The representative times the inverse of the radix (R12). -/
theorem fieldVal_eq_mul (v : U256) : fieldVal v = (v.toNat : ZMod Config.q) * (radixInv : ZMod Config.q) := by
  rw [fieldVal, val, ZMod.natCast_mod, Nat.cast_mul]

@[simp] theorem fieldVal_rOne : fieldVal Config.rOne = 1 := by
  have h : val Config.rOne = 1 := by decide
  rw [fieldVal, h, Nat.cast_one]

theorem eq_rOne_iff {v : U256} (hv : reduced v) : v = Config.rOne ↔ fieldVal v = 1 := by
  rw [← fieldVal_inj hv reduced_rOne, fieldVal_rOne]

theorem fieldVal_pow (v : U256) (n : Nat) : fieldVal v ^ n = ((val v ^ n % Config.q : Nat) : ZMod Config.q) := by
  rw [ZMod.natCast_mod, Nat.cast_pow, fieldVal]

/-- `mont_mul` is the product of the field (R142). -/
theorem fieldVal_montMul {a b : U256} (h : reduced a ∨ reduced b) :
    fieldVal (montMul a b) = fieldVal a * fieldVal b := by
  have hlt : a.toNat * b.toNat < Config.q * Config.radix := h.elim mul_lt_of_reduced_left mul_lt_of_reduced_right
  simp only [fieldVal_eq_mul, montMul_toNat hlt, ZMod.natCast_mod, Nat.cast_mul]
  ring

theorem montSqr_eq_montMul (a : U256) : montSqr a = montMul a a := by
  rw [montSqr, montMul, U512.toNat_inj ((sqr4_toNat a).trans (mul4x4_toNat a a).symm)]

/-- `mont_sqr` is the square of the field (R143). -/
theorem fieldVal_montSqr {a : U256} (h : reduced a) : fieldVal (montSqr a) = fieldVal a ^ 2 := by
  rw [montSqr_eq_montMul, fieldVal_montMul (.inl h), sq]

/-- A round of square-and-multiply keeps `acc ^ 2 ^ k * b ^ (e % 2 ^ k)`, where `k` counts the rounds still to come: it
is `n + 1` before the round of bit `n` and `n` after it (R171). -/
theorem fieldVal_squareMultiply {acc b : U256} (e : U256) (n : Nat) (hacc : reduced acc) :
    fieldVal (if e.bit n then montMul (montSqr acc) b else montSqr acc) ^ 2 ^ n * fieldVal b ^ (e.toNat % 2 ^ n) =
      fieldVal acc ^ 2 ^ (n + 1) * fieldVal b ^ (e.toNat % 2 ^ (n + 1)) := by
  have hbit : e.toNat / 2 ^ n % 2 = (e.bit n).toNat := (Nat.toNat_testBit e.toNat n).symm
  have hsqr := montSqr_is_reduced hacc
  rw [Nat.mod_pow_succ, hbit]
  cases e.bit n with
  | true =>
    rw [if_pos rfl, fieldVal_montMul (.inl hsqr), fieldVal_montSqr hacc, Bool.toNat_true]
    ring
  | false =>
    rw [if_neg Bool.false_ne_true, fieldVal_montSqr hacc, Bool.toNat_false]
    ring

theorem fieldVal_powVtLoop (b e : U256) (n : Nat) {acc : U256} (hacc : reduced acc) :
    fieldVal (powVtLoop b e n acc) = fieldVal acc ^ 2 ^ n * fieldVal b ^ (e.toNat % 2 ^ n) := by
  induction n generalizing acc with
  | zero => simp [powVtLoop_zero, Nat.mod_one]
  | succ n ih =>
    rw [powVtLoop_succ, ih (squareMultiply_is_reduced b (e.bit n) hacc), fieldVal_squareMultiply e n hacc]

/-- `pow_vt` is the power of the field (spec/43_exponentiation.md R172). -/
theorem fieldVal_powVt (b e : U256) : fieldVal (powVt b e) = fieldVal b ^ e.toNat := by
  rw [powVt, fieldVal_powVtLoop b e 256 reduced_rOne, fieldVal_rOne, one_pow, one_mul, Nat.mod_eq_of_lt e.toNat_lt]

end Sys2Proof.Machine
end

section
/-! The square-root engine ends, and with a square root (spec/45_sqrt.md R200, R202, R204). The engine is followed in the
field: `c`, `r`, `w` stand for field elements, and the rounds keep `c ^ 2 ^ (m - 1) = -1`, `w ^ 2 ^ (m - 1) = 1` and
`r ^ 2 = a * w`. -/

namespace Sys2Proof.Machine

/-- The field has no square root of 1 but 1 and -1. -/
theorem zmod_eq_neg_one {x : ZMod Config.q} (h : x ^ 2 = 1) (hx : x ≠ 1) : x = -1 := by
  have : Fact Config.q.Prime := ⟨q_prime⟩
  exact (mul_self_eq_one_iff.mp ((sq x).symm.trans h)).resolve_left hx

/-- An element that enough squarings take to 1 stays 1 under more of them. -/
theorem pow_two_pow_eq_one_of_le {x : ZMod Config.q} {m n : Nat} (h : x ^ 2 ^ m = 1) (hmn : m ≤ n) : x ^ 2 ^ n = 1 := by
  rw [← orderOf_dvd_iff_pow_eq_one] at h ⊢
  exact h.trans (pow_dvd_pow 2 hmn)

theorem squareTimes_is_reduced (n : Nat) {c : U256} (hc : reduced c) : reduced (squareTimes n c) := by
  induction n generalizing c with
  | zero => exact hc
  | succ n ih => rw [squareTimes_succ]; exact ih (montSqr_is_reduced hc)

/-- `n` squarings give the power `2 ^ n` of the field. -/
theorem fieldVal_squareTimes (n : Nat) {c : U256} (hc : reduced c) :
    fieldVal (squareTimes n c) = fieldVal c ^ 2 ^ n := by
  induction n generalizing c with
  | zero => rw [squareTimes, pow_zero, pow_one]
  | succ n ih => rw [squareTimes_succ, ih (montSqr_is_reduced hc), fieldVal_montSqr hc, ← pow_mul, pow_succ' 2 n]

/-- The inner search, at the candidate `i + 1` with `t2 = w ^ 2 ^ (i + 1)`, ends with the number of squarings that take
`w` to 1, when its fuel reaches that far (R202). -/
theorem orderSearch_finds (w : ZMod Config.q) {fuel i : Nat} {t2 : U256} (ht : reduced t2)
    (hval : fieldVal t2 = w ^ 2 ^ (i + 1)) (hne : w ^ 2 ^ i ≠ 1) (hend : w ^ 2 ^ (i + fuel) = 1) :
    ∃ k, orderSearch fuel (i + 1) t2 = some (k + 1) ∧ w ^ 2 ^ k ≠ 1 ∧ w ^ 2 ^ (k + 1) = 1 := by
  induction fuel generalizing i t2 with
  | zero => exact absurd hend hne
  | succ fuel ih =>
    rw [orderSearch_succ]
    by_cases hone : t2 = Config.rOne
    · rw [if_pos hone]
      exact ⟨i, rfl, hne, by rw [← hval, (eq_rOne_iff ht).mp hone]⟩
    · rw [if_neg hone]
      refine ih (montSqr_is_reduced ht) ?_ ?_ ?_
      · rw [fieldVal_montSqr ht, hval, ← pow_mul, ← pow_succ]
      · rwa [← hval, ne_eq, ← eq_rOne_iff ht]
      · rwa [Nat.add_right_comm, Nat.add_assoc]

/-- What holds of the variables at the top of every round, for the operand `a`; `n` is `m - 1` (R202). -/
structure SqrtInv (a : ZMod Config.q) (n : Nat) (v : SqrtVars) : Prop where
  m_eq : v.m = n + 1
  reducedC : reduced v.c
  reducedR : reduced v.r
  reducedW : reduced v.w
  c_pow : fieldVal v.c ^ 2 ^ n = -1
  w_pow : fieldVal v.w ^ 2 ^ n = 1
  r_sq : fieldVal v.r ^ 2 = a * fieldVal v.w

/-- The inner search of a round finds an order below `m` (R202: "the inner search ends with `1 <= i <= m - 1`"). -/
theorem SqrtInv.orderSearch_eq_some {a : ZMod Config.q} {n : Nat} {v : SqrtVars} (h : SqrtInv a n v)
    (hn : n ≤ Config.twoAdicity) (hw : v.w ≠ Config.rOne) :
    ∃ k < n, orderSearch Config.twoAdicity 1 (montSqr v.w) = some (k + 1) ∧ fieldVal v.w ^ 2 ^ k = -1 := by
  have hone : fieldVal v.w ^ 2 ^ 0 ≠ 1 := by rwa [pow_zero, pow_one, ne_eq, ← eq_rOne_iff h.reducedW]
  have hend : fieldVal v.w ^ 2 ^ (0 + Config.twoAdicity) = 1 := pow_two_pow_eq_one_of_le h.w_pow (by omega)
  obtain ⟨k, hk, hne, hsq⟩ := orderSearch_finds _ (montSqr_is_reduced h.reducedW) (fieldVal_montSqr h.reducedW) hone hend
  refine ⟨k, ?_, hk, zmod_eq_neg_one ?_ hne⟩
  · by_contra hle
    exact hne (pow_two_pow_eq_one_of_le h.w_pow (Nat.not_lt.mp hle))
  · rw [← pow_mul, ← pow_succ, hsq]

/-- A round keeps the invariant and brings `m` down to the order found (R202). -/
theorem SqrtInv.update {a : ZMod Config.q} {n k : Nat} {v : SqrtVars} (h : SqrtInv a n v) (hk : k < n)
    (hw : fieldVal v.w ^ 2 ^ k = -1) : SqrtInv a k (sqrtUpdate v (k + 1)) := by
  have hcount : v.m - (k + 1) - 1 = n - k - 1 := by rw [h.m_eq]; omega
  have hpow : 2 ^ (n - k - 1) * (2 * 2 ^ k) = 2 ^ n := by rw [← pow_succ', ← pow_add]; congr 1; omega
  have hred := squareTimes_is_reduced (n - k - 1) h.reducedC
  have hc := fieldVal_squareTimes (n - k - 1) h.reducedC
  have hsqr := fieldVal_montSqr hred
  have hc_pow : fieldVal (montSqr (squareTimes (n - k - 1) v.c)) ^ 2 ^ k = -1 := by
    rw [hsqr, hc, ← pow_mul, ← pow_mul, hpow, h.c_pow]
  rw [sqrtUpdate_eq, hcount]
  refine ⟨rfl, montSqr_is_reduced hred, montMul_reduced (.inl h.reducedR), montMul_reduced (.inl h.reducedW), hc_pow,
    ?_, ?_⟩
  · rw [fieldVal_montMul (.inl h.reducedW), mul_pow, hw, hc_pow, neg_mul_neg, one_mul]
  · rw [fieldVal_montMul (.inl h.reducedR), fieldVal_montMul (.inl h.reducedW), mul_pow, h.r_sq, hsqr, mul_assoc]

/-- The refinement loop ends with a square root of the operand, in at most `m - 1` rounds (R202, R204). -/
theorem SqrtInv.sqrtLoop_eq_some {a : ZMod Config.q} {n fuel : Nat} {v : SqrtVars} (h : SqrtInv a n v)
    (hn : n ≤ Config.twoAdicity) (hfuel : n ≤ fuel) : ∃ r, sqrtLoop fuel v = some r ∧ fieldVal r ^ 2 = a := by
  induction n using Nat.strong_induction_on generalizing fuel v with
  | _ n ih =>
    by_cases hw : v.w = Config.rOne
    · exact ⟨v.r, sqrtLoop_done fuel hw, by rw [h.r_sq, hw, fieldVal_rOne, mul_one]⟩
    · obtain ⟨k, hk, hi, hwk⟩ := h.orderSearch_eq_some hn hw
      cases fuel with
      | zero => omega
      | succ fuel =>
        rw [sqrtLoop_round hw hi]
        exact ih k hk (h.update hk hwk) (by omega) (by omega)

/-- The exponents of the engine by the odd part `t` (R35). -/
theorem exponents_of_expT : Config.expLeg.toNat = Config.expT.toNat * 2 ^ 31 ∧
    Config.expTp1h.toNat * 2 = Config.expT.toNat + 1 := by
  decide

theorem fieldVal_primitiveRoot_pow {c : U256} (hc : primitiveRoot c) : fieldVal c ^ 2 ^ 31 = -1 := by
  obtain ⟨_, _, h31⟩ := hc
  rw [fieldVal_pow, h31, Nat.cast_sub q_pos, ZMod.natCast_self, zero_sub, Nat.cast_one]

/-- The variables that step 4 of the engine starts with meet the invariant, for an operand of Legendre symbol 1 (R202). -/
theorem sqrtInv_start {c a : U256} (hc : primitiveRoot c) (ha : powVt a Config.expLeg = Config.rOne) :
    SqrtInv (fieldVal a) 31 ⟨c, powVt a Config.expTp1h, powVt a Config.expT, Config.twoAdicity⟩ := by
  obtain ⟨hLeg, hTp1h⟩ := exponents_of_expT
  have hr := powVt_is_reduced a Config.expTp1h
  have hw := powVt_is_reduced a Config.expT
  have hw_pow : fieldVal (powVt a Config.expT) ^ 2 ^ 31 = 1 := by
    rw [fieldVal_powVt, ← pow_mul, ← hLeg, ← fieldVal_powVt, ha, fieldVal_rOne]
  have hr_sq : fieldVal (powVt a Config.expTp1h) ^ 2 = fieldVal a * fieldVal (powVt a Config.expT) := by
    rw [fieldVal_powVt, fieldVal_powVt, ← pow_mul, hTp1h, pow_succ']
  generalize powVt a Config.expTp1h = r at *
  generalize powVt a Config.expT = w at *
  exact ⟨rfl, hc.1, hr, hw, fieldVal_primitiveRoot_pow hc, hw_pow, hr_sq⟩

/-- With a primitive root, the engine gives an operand of Legendre symbol 1 a square root (R204). -/
theorem sqrtVtWith_root {c a : U256} (hc : primitiveRoot c) (ha : powVt a Config.expLeg = Config.rOne) :
    ∃ v, sqrtVtWith c a = .root v ∧ fieldVal v ^ 2 = fieldVal a := by
  obtain ⟨r, hr, hsq⟩ := (sqrtInv_start hc ha).sqrtLoop_eq_some (fuel := Config.twoAdicity) (by decide) (by decide)
  have hzero : Config.rOne ≠ U256.zero := by decide
  exact ⟨r, by rw [sqrtVtWith_eq, if_neg (ha ▸ hzero), if_pos ha, hr, Option.elim_some], hsq⟩

/-- The engine ends on every operand (R202). -/
theorem sqrtVtWith_ne_diverges {c : U256} (hc : primitiveRoot c) (a : U256) : sqrtVtWith c a ≠ .diverges := by
  by_cases ha : powVt a Config.expLeg = Config.rOne
  · obtain ⟨v, hv, _⟩ := sqrtVtWith_root hc ha
    rw [hv]
    nofun
  · rw [sqrtVtWith_eq, if_neg ha]
    split <;> nofun

end Sys2Proof.Machine
end

section
/-! The register window, the step and the runs (spec/20_memory.md R50 to R57, R62, R63). -/

namespace Sys2Proof.Machine

/-! A host read and a host write of a register (R52). -/

@[simp] theorem memRead_setInbox (s : State) (es : List HostEvent) (r : WinReg) :
    memRead (setInbox s es) r = memRead s r := by
  cases r <;> rfl

theorem step_hostRd {s : State} {r : WinReg} {rest : List HostEvent} (h : s.inbox = hostRd r :: rest) :
    step s = .next (reply (setInbox s rest) (memRead s r)) := by
  rw [step_event h, acceptEvent_hostRd, memRead_setInbox]

theorem step_hostWr {s : State} {r : WinReg} {v : Word} {rest : List HostEvent} (h : s.inbox = hostWr r v :: rest) :
    step s = memWrite (setInbox s rest) r v := by
  rw [step_event h, acceptEvent_hostWr]

/-- A host read of any register returns its value and changes nothing else. -/
theorem hostRd_effect {s : State} {r : WinReg} {rest : List HostEvent} (h : s.inbox = hostRd r :: rest) :
    ∃ t, step s = .next t ∧ t.replies = memRead s r :: s.replies ∧ sameRegs s t ∧ sameData s t ∧ sameStatus s t ∧
      t.inbox = rest :=
  ⟨_, step_hostRd h, rfl, fun _ => rfl, fun _ => rfl, ⟨rfl, rfl, rfl, rfl⟩, rfl⟩

/-- A value of 33 bits or more has a nonzero upper half (spec/30_encoding.md R70). -/
theorem cmdHigh_ne_zero {v : Word} (h : 2 ^ 32 ≤ v.toNat) : cmdHigh v ≠ 0 := by
  have hv := v.isLt
  intro hz
  have hhigh : (cmdHigh v).toNat = 0 := by rw [hz]; rfl
  rw [cmdHigh, BitVec.extractLsb'_toNat, Nat.shiftRight_eq_div_pow] at hhigh
  omega

/-- Settles O33, by the meaning of a write to `CMD`. -/
theorem stepRunsTheDecodedCommand : Obligations.StepRunsTheDecodedCommand := by
  unfold Obligations.StepRunsTheDecodedCommand
  intro s v rest h
  rw [step_hostWr h]
  exact ⟨fun i hd => memWrite_cmd_of_cmd _ hd, fun c hd => memWrite_cmd_of_illegal _ hd,
    fun hv => decode_high (cmdHigh_ne_zero hv)⟩

/-- Settles O35: the write is `writeData` on the state with the event taken off, the read a read of the window. -/
theorem dataRegistersReadAndWrite : Obligations.DataRegistersReadAndWrite := by
  unfold Obligations.DataRegistersReadAndWrite
  refine fun s i rest => ⟨fun v h => ?_, hostRd_effect⟩
  exact ⟨writeData (setInbox s rest) i v, step_hostWr h, readData_writeData_same _ i v,
    fun j hj => readData_writeData_of_ne _ v hj, fun _ => rfl, ⟨rfl, rfl, rfl, rfl⟩, rfl, rfl⟩

/-- Settles O36: `CMD` reads as 0. -/
theorem cmdReadsAsZero : Obligations.CmdReadsAsZero := by
  unfold Obligations.CmdReadsAsZero
  exact fun s rest h => hostRd_effect h

/-! `STATUS` (spec/10_state.md R26). -/

/-- A bit vector built of two stands for its high part shifted above its low part. -/
theorem toNat_append_eq_add {m n : Nat} (x : BitVec m) (y : BitVec n) :
    (x ++ y).toNat = x.toNat * 2 ^ n + y.toNat := by
  rw [BitVec.toNat_append, ← Nat.shiftLeft_add_eq_or_of_lt y.isLt, Nat.shiftLeft_eq]

/-- The packed register as a sum: `EQ` at bit 0, `NONE` at bit 1, `ILL` at bit 2, `CAUSE` from bit 4 (R26, R52). -/
theorem packStatus_toNat (s : State) :
    (packStatus s).toNat = s.eqFlag.toNat + 2 * s.noneFlag.toNat + 4 * s.ill.toNat + 16 * s.cause.toNat := by
  have hcause := s.cause.isLt
  have heq := s.eqFlag.toNat_le
  have hnone := s.noneFlag.toNat_le
  have hill := s.ill.toNat_le
  have hbit : (0#1).toNat = 0 := rfl
  rw [packStatus, BitVec.toNat_setWidth]
  simp only [toNat_append_eq_add, BitVec.toNat_ofBool, hbit]
  omega

/-- Settles O37: the read returns the packed register, the write leaves the state with the event taken off. -/
theorem statusReadsPackedAndIgnoresWrites : Obligations.StatusReadsPackedAndIgnoresWrites := by
  unfold Obligations.StatusReadsPackedAndIgnoresWrites
  refine fun s rest => ⟨fun h => ?_, fun v h => ?_⟩
  · obtain ⟨t, hstep, hreplies, hregs, hdata, hstatus, hin⟩ := hostRd_effect h
    exact ⟨t, packStatus s, hstep, hreplies, hregs, hdata, hstatus, hin, packStatus_toNat s⟩
  · exact ⟨setInbox s rest, step_hostWr h, fun _ => rfl, fun _ => rfl, ⟨rfl, rfl, rfl, rfl⟩, rfl, rfl⟩

/-! Which accesses are accepted (R51). -/

/-- Every register of the window is reached by well-formed accesses. -/
theorem wellFormed_winOffset (k : AccessKind) (r : WinReg) : Access.wellFormed ⟨k, winOffset r, 8⟩ = true := by
  match r with
  | .data 0 => rfl
  | .data 1 => rfl
  | .data 2 => rfl
  | .data 3 => rfl
  | .cmd => rfl
  | .status => rfl

theorem acceptAccess_refused {a : Access} (s : State) (h : a.wellFormed = false) :
    ∃ r, acceptAccess a s = .refused r := by
  obtain ⟨kind, offset, width⟩ := a
  unfold acceptAccess
  split
  · exact ⟨_, rfl⟩
  split
  · exact ⟨_, rfl⟩
  next hwidth _ =>
    obtain rfl : width = 8 := not_not.mp hwidth
    split
    · exact ⟨_, rfl⟩
    next r hr =>
      obtain rfl := offset_of_winRegAt hr
      rw [wellFormed_winOffset] at h
      cases h

/-- Every command completes: `SQRT` alone could end in a fault, and its engine ends on every operand
(spec/45_sqrt.md R202). -/
theorem exec_completes (i : Instr) (s : State) : ∃ t, exec i s = .next t := by
  cases i with
  | sqrt rd ra =>
    rw [exec_sqrt, execSqrt]
    cases h : sqrtVt (readF s ra) with
    | root v => exact ⟨_, rfl⟩
    | noValue => exact ⟨_, rfl⟩
    | diverges => exact absurd h (sqrtVtWith_ne_diverges rootOfUnityIsPrimitive _)
  | zero | one | fromu64 | dec | enc | neg | add | sub | mul | sqr | powc | powv | inv | eq | sel => exact ⟨_, rfl⟩

theorem memWrite_completes (s : State) (r : WinReg) (v : Word) : ∃ t, memWrite s r v = .next t := by
  cases r with
  | data i => exact ⟨_, rfl⟩
  | status => exact ⟨_, rfl⟩
  | cmd =>
    cases hd : decode v with
    | cmd i => rw [memWrite_cmd_of_cmd s hd]; exact exec_completes i s
    | illegal c => rw [memWrite_cmd_of_illegal s hd]; exact ⟨_, rfl⟩

/-- The block accepts every well-formed event (R51, R52). -/
theorem acceptEvent_completes {e : HostEvent} (h : e.wellFormed = true) (s : State) :
    ∃ t, acceptEvent e s = .next t := by
  cases e with
  | reset => exact ⟨_, rfl⟩
  | access a =>
    obtain ⟨r, hr | ⟨v, hr⟩⟩ := wellFormed_is_hostAccess h
    · rw [hr, acceptEvent_hostRd]; exact ⟨_, rfl⟩
    · rw [hr, acceptEvent_hostWr]; exact memWrite_completes s r v

/-- Settles O38: an ill-formed access reaches no register, a well-formed one completes. -/
theorem onlyWellFormedAccessesAreAccepted : Obligations.OnlyWellFormedAccessesAreAccepted := by
  unfold Obligations.OnlyWellFormedAccessesAreAccepted
  intro s a rest h
  rw [step_event h]
  refine ⟨fun ha => acceptAccess_refused _ ha, fun ha => ?_⟩
  obtain ⟨t, ht⟩ := acceptEvent_completes (e := .access a) ha (setInbox s rest)
  rw [ht]
  nofun

/-! The map of the window (R50). -/

/-- An access at `BASE + off` is an access at offset `off`, whatever `BASE` is. -/
theorem accessAt_base_add (k : AccessKind) (off width : Nat) :
    accessAt k (Config.base + off) width = ⟨k, (off : Int), width⟩ := by
  simp [accessAt]

theorem acceptAccess_base_add {off : Nat} {r : WinReg} (k : AccessKind) (s : State) (h : (off : Int) = winOffset r) :
    acceptAccess (accessAt k (Config.base + off) 8) s = accessReg r k s := by
  rw [accessAt_base_add, h, acceptAccess_at]

theorem winOffset_data (i : Fin 4) : ((8 * i.val : Nat) : Int) = winOffset (.data i) := by
  match i with
  | 0 => rfl
  | 1 => rfl
  | 2 => rfl
  | 3 => rfl

/-- No register lies at or above offset `0x30`. -/
theorem winRegAt_of_le {offset : Int} (h : 0x30 ≤ offset) : winRegAt offset = none := by
  rw [winRegAt, if_neg, if_neg, if_neg, if_neg, if_neg, if_neg] <;> omega

theorem acceptAccess_above_window {off : Nat} (k : AccessKind) (s : State) (h : 0x30 ≤ off) (halign : off % 8 = 0) :
    acceptAccess (accessAt k (Config.base + off) 8) s = .refused .accessOutsideWindow := by
  have hmod : (off : Int) % 8 = 0 := by omega
  have hnone : winRegAt (off : Int) = none := winRegAt_of_le (by omega)
  simp [accessAt_base_add, acceptAccess, hmod, hnone]

/-- Settles O39: the offset of an access does not depend on `BASE`. -/
theorem windowMapHoldsForEveryBase : Obligations.WindowMapHoldsForEveryBase := by
  unfold Obligations.WindowMapHoldsForEveryBase
  intro k s
  exact ⟨fun i => acceptAccess_base_add k s (winOffset_data i), acceptAccess_base_add k s rfl,
    acceptAccess_base_add k s rfl, fun off h halign => acceptAccess_above_window k s h halign⟩

/-! The order of the events (R62). -/

/-- A command leaves the host's side of the window. -/
theorem CommandEffect.samePort {i : Instr} {s t : State} (h : CommandEffect s i t) : samePort s t := by
  cases h <;> exact ⟨rfl, rfl⟩

/-- An event leaves the events behind it, and only a read adds a reply, the value read. -/
theorem EventEffect.port {e : HostEvent} {s t : State} (h : EventEffect s e t) :
    t.inbox = s.inbox ∧ (t.replies = s.replies ∨ ∃ r, e = hostRd r ∧ t.replies = memRead s r :: s.replies) := by
  cases h with
  | reset => exact ⟨rfl, .inl rfl⟩
  | read r => exact ⟨rfl, .inr ⟨r, rfl, rfl⟩⟩
  | writeData i v => exact ⟨rfl, .inl rfl⟩
  | writeStatus v => exact ⟨rfl, .inl rfl⟩
  | command hd he =>
    obtain ⟨hin, hreplies⟩ := (exec_effect he).samePort
    exact ⟨hin, .inl hreplies⟩
  | illegal hd => exact ⟨rfl, .inl rfl⟩

/-- Settles O41, by the cases of what an accepted event can do. -/
theorem stepAcceptsEventsInOrder : Obligations.StepAcceptsEventsInOrder := by
  unfold Obligations.StepAcceptsEventsInOrder
  intro s t e rest hin h
  rw [step_event hin] at h
  simpa using (acceptEvent_effect h).port

/-! Runs over the host's events (R62, R63). -/

/-- A run goes on from the state its first step answers. -/
theorem core_run_succ {s t : State} (n : Nat) (h : step s = .next t) : core.run (n + 1) s = core.run n t := by
  have hstep : core.step s = .next t := h
  simp only [Host.Core.run, hstep]

/-- A run accepts well-formed events to the end and keeps the invariant. -/
theorem run_wellFormed (es : List HostEvent) {s : State} (hes : ∀ e ∈ es, e.wellFormed = true) (hs : s.Inv)
    (hin : s.inbox = es) : ∃ t : State, core.run es.length s = .next t ∧ t.inbox = [] ∧ t.Inv := by
  induction es generalizing s with
  | nil => exact ⟨s, rfl, hin, hs⟩
  | cons e es ih =>
    obtain ⟨he, hes⟩ := List.forall_mem_cons.mp hes
    obtain ⟨u, hu⟩ := acceptEvent_completes he (setInbox s es)
    have hstep : step s = .next u := (step_event hin).trans hu
    obtain ⟨huin, _⟩ := stepAcceptsEventsInOrder s u e es hin hstep
    obtain ⟨t, hrun, ht⟩ := ih hes (stepKeepsInvariant s u hs hstep) huin
    exact ⟨t, (core_run_succ es.length hstep).trans hrun, ht⟩

/-- An interleaving holds the events of its two streams and no others. -/
theorem Interleaves.mem_or_mem {xs ys zs : List HostEvent} (h : Interleaves xs ys zs) {e : HostEvent} (he : e ∈ zs) :
    e ∈ xs ∨ e ∈ ys := by
  induction h with
  | nil => exact .inl he
  | left e' _ ih =>
    rcases List.mem_cons.mp he with rfl | he
    · exact .inl List.mem_cons_self
    · exact (ih he).imp_left (List.mem_cons_of_mem e')
  | right e' _ ih =>
    rcases List.mem_cons.mp he with rfl | he
    · exact .inr List.mem_cons_self
    · exact (ih he).imp_right (List.mem_cons_of_mem e')

/-- Settles O52: every event of an interleaving is well-formed, so the run accepts it. -/
theorem everyInterleavingRunsToTheEnd : Obligations.EveryInterleavingRunsToTheEnd := by
  unfold Obligations.EveryInterleavingRunsToTheEnd
  intro xs ys zs s h hxs hys hs hin
  exact run_wellFormed zs (fun e he => (h.mem_or_mem he).elim (hxs e) (hys e)) hs hin

/-! The bytes of the data buffer (R57). -/

theorem readData_writeData (s : State) (i j : Fin 4) (v : Word) :
    readData (writeData s i v) j = if j = i then v else readData s j := by
  by_cases h : j = i
  · subst h; simp
  · simp [h, readData_writeData_of_ne]

/-- Host writes of `w i` to `DATAi`, in any order of the registers, leave `w i` in each register written. -/
theorem run_hostWr_data (w : Fin 4 → Word) (is : List (Fin 4)) {rest : List HostEvent} {s : State}
    (h : s.inbox = is.map (fun i => hostWr (.data i) (w i)) ++ rest) :
    ∃ t : State, core.run is.length s = .next t ∧ (∀ j, readData t j = if j ∈ is then w j else readData s j) ∧
      t.inbox = rest := by
  induction is generalizing s with
  | nil => exact ⟨s, rfl, by simp, h⟩
  | cons i is ih =>
    obtain ⟨t, hrun, hread, hin⟩ := ih (s := writeData (setInbox s _) i (w i)) rfl
    refine ⟨t, (core_run_succ _ (step_hostWr h)).trans hrun, fun j => ?_, hin⟩
    rw [hread, readData_writeData]
    by_cases hj : j = i
    · subst hj; simp
    · simp [hj]

/-- Byte `k` of a little-endian word is the byte loaded at `k`. -/
theorem byteLane_wordOfBytes (f : Fin 8 → BitVec 8) (k : Fin 8) :
    byteLane (wordOfBytes (f 0) (f 1) (f 2) (f 3) (f 4) (f 5) (f 6) (f 7)) k.val = f k := by
  have h0 := (f 0).isLt; have h1 := (f 1).isLt; have h2 := (f 2).isLt; have h3 := (f 3).isLt
  have h4 := (f 4).isLt; have h5 := (f 5).isLt; have h6 := (f 6).isLt; have h7 := (f 7).isLt
  apply BitVec.eq_of_toNat_eq
  rw [byteLane, BitVec.extractLsb'_toNat, Nat.shiftRight_eq_div_pow, wordOfBytes]
  simp only [toNat_append_eq_add]
  fin_cases k <;> simp only [Fin.reduceFinMk] <;> omega

/-- Byte `k` of word `i` among 32 bytes, in the numbering of `dataByte_finProdFinEquiv`. -/
def byteOf (b : Vector (BitVec 8) 32) (i : Fin 4) (k : Fin 8) : BitVec 8 := b[finProdFinEquiv (i, k)]

/-- The little-endian word `i` of 32 bytes. -/
def wordAt (b : Vector (BitVec 8) 32) (i : Fin 4) : Word :=
  wordOfBytes (byteOf b i 0) (byteOf b i 1) (byteOf b i 2) (byteOf b i 3) (byteOf b i 4) (byteOf b i 5) (byteOf b i 6)
    (byteOf b i 7)

/-- Settles O45: the four writes leave word `i` of the bytes in `DATAi`, whose byte `k` is byte `k` of that word. -/
theorem hostBytesArriveInOrder : Obligations.HostBytesArriveInOrder := by
  unfold Obligations.HostBytesArriveInOrder
  intro b s rest h
  obtain ⟨t, hrun, hread, hin⟩ := run_hostWr_data (wordAt b) [0, 1, 2, 3] h
  refine ⟨t, hrun, fun j => ?_, hin⟩
  obtain ⟨⟨i, k⟩, rfl⟩ := (finProdFinEquiv (m := 4) (n := 8)).surjective j
  have hall : ∀ i : Fin 4, i ∈ [0, 1, 2, 3] := by decide
  rw [dataByte_finProdFinEquiv, hread, if_pos (hall i)]
  exact byteLane_wordOfBytes (byteOf b i) k

end Sys2Proof.Machine
end

section
/-! The encoding of commands (spec/30_encoding.md): the decoder accepts a value exactly when it has the shape of a listed
opcode, and such a value is the word of the command it decodes to. -/

namespace Sys2Proof

open Sys2Proof.Machine

/-! A value written to `CMD` as the concatenation of its fields (R70, R71). -/

/-- Concatenation at fixed widths is injective. -/
theorem append_eq_append_iff {m n : Nat} {x x' : BitVec m} {y y' : BitVec n} :
    x ++ y = x' ++ y' ↔ x = x' ∧ y = y' := by
  refine ⟨fun h => ⟨?_, ?_⟩, fun ⟨hx, hy⟩ => by rw [hx, hy]⟩
  · rw [← BitVec.extractLsb'_append_eq_left (a := x) (b := y), h, BitVec.extractLsb'_append_eq_left]
  · rw [← BitVec.extractLsb'_append_eq_right (a := x) (b := y), h, BitVec.extractLsb'_append_eq_right]

/-- The 32-bit word with these fields (R71). -/
def wordOfFields (rsv : BitVec 12) (rb ra rd : BitVec 4) (op : BitVec 8) : BitVec 32 := rsv ++ rb ++ ra ++ rd ++ op

/-- Equal words have equal fields: the width 32 is read as the sum of the widths of the fields. -/
theorem wordOfFields_inj {rsv rsv' : BitVec 12} {rb rb' ra ra' rd rd' : BitVec 4} {op op' : BitVec 8} :
    wordOfFields rsv rb ra rd op = wordOfFields rsv' rb' ra' rd' op' ↔
      rsv = rsv' ∧ rb = rb' ∧ ra = ra' ∧ rd = rd' ∧ op = op' := by
  change @Eq (BitVec (12 + 4 + 4 + 4 + 8)) _ _ ↔ _
  simp only [wordOfFields, append_eq_append_iff, and_assoc]

theorem wordOfFields_and (rsv rsv' : BitVec 12) (rb rb' ra ra' rd rd' : BitVec 4) (op op' : BitVec 8) :
    wordOfFields rsv rb ra rd op &&& wordOfFields rsv' rb' ra' rd' op' =
      wordOfFields (rsv &&& rsv') (rb &&& rb') (ra &&& ra') (rd &&& rd') (op &&& op') := by
  simp only [wordOfFields, ← BitVec.and_append]

/-- The lower half of a value written to `CMD`, put together from its fields (R71). -/
def fieldsWord (v : Word) : BitVec 32 :=
  wordOfFields (fieldRsv v) (fieldRb v) (fieldRa v) (fieldRd v) (fieldOp v)

theorem fieldsWord_eq_extractLsb' (v : Word) : fieldsWord v = v.extractLsb' 0 32 := by
  rw [fieldsWord, wordOfFields, fieldRsv, fieldRb, fieldRa, fieldRd, fieldOp,
    BitVec.extractLsb'_append_extractLsb'_eq_extractLsb' (start₂ := 20) (start₁ := 16) rfl,
    BitVec.extractLsb'_append_extractLsb'_eq_extractLsb' (start₂ := 16) (start₁ := 12) rfl,
    BitVec.extractLsb'_append_extractLsb'_eq_extractLsb' (start₂ := 12) (start₁ := 8) rfl,
    BitVec.extractLsb'_append_extractLsb'_eq_extractLsb' (start₂ := 8) (start₁ := 0) rfl]

theorem cmdHigh_append_fieldsWord (v : Word) : cmdHigh v ++ fieldsWord v = v := by
  rw [fieldsWord_eq_extractLsb', cmdHigh,
    BitVec.extractLsb'_append_extractLsb'_eq_extractLsb' (start₂ := 32) (start₁ := 0) rfl]
  exact BitVec.extractLsb'_eq_self

theorem setWidth_eq_zero_append (w : BitVec 32) : w.setWidth 64 = 0#32 ++ w :=
  BitVec.setWidth_eq_append (by decide)

theorem fields_setWidth (w : BitVec 32) : cmdHigh (w.setWidth 64) = 0 ∧ fieldsWord (w.setWidth 64) = w := by
  rw [← append_eq_append_iff, cmdHigh_append_fieldsWord]
  exact setWidth_eq_zero_append w

/-- A value with a zero upper half is determined by the fields of its lower half (R70). -/
theorem setWidth_fieldsWord {v : Word} (h : cmdHigh v = 0) : (fieldsWord v).setWidth 64 = v := by
  conv_rhs => rw [← cmdHigh_append_fieldsWord v, h]
  exact setWidth_eq_zero_append _

/-! The values the decoder accepts (R74, R79). -/

/-- The shape of a legal value with opcode `o`: none of the four illegal conditions holds (R79). -/
structure LegalAs (o : Opcode) (v : Word) : Prop where
  high : cmdHigh v = 0
  op : fieldOp v = opcodeNumber o
  rsv : fieldRsv v = 0
  unused : unusedFieldSet o v = false

/-- The command with opcode `o` and the register fields of `v`. -/
def commandOf (o : Opcode) (v : Word) : Instr :=
  buildInstr o (fieldRd v).toFin (fieldRa v).toFin (fieldRb v).toFin

theorem decode_of_legalAs {o : Opcode} {v : Word} (h : LegalAs o v) : decode v = .cmd (commandOf o v) := by
  simp [decode, commandOf, h.high, h.op, h.rsv, h.unused]

theorem legalAs_of_decode {v : Word} {i : Instr} (h : decode v = .cmd i) : ∃ o, LegalAs o v ∧ commandOf o v = i := by
  unfold decode at h
  split at h
  next => cases h
  next hhigh =>
    split at h
    next => cases h
    next o hop =>
      split at h
      next => cases h
      next hrsv =>
        split at h
        next => cases h
        next hunused =>
          exact ⟨o, ⟨not_not.mp hhigh, (opcodeNumber_of_opcodeOf hop).symm, not_not.mp hrsv, by simpa using hunused⟩,
            Decoded.cmd.inj h⟩

theorem decode_eq_cmd_iff (v : Word) (i : Instr) : decode v = .cmd i ↔ ∃ o, LegalAs o v ∧ commandOf o v = i := by
  refine ⟨legalAs_of_decode, ?_⟩
  rintro ⟨o, hlegal, rfl⟩
  exact decode_of_legalAs hlegal

/-- The decoder answers a command with opcode `o` exactly on the values of the shape of `o`. -/
theorem exists_decode_opcode_iff (o : Opcode) (v : Word) :
    (∃ i, decode v = .cmd i ∧ opcodeOfInstr i = o) ↔ LegalAs o v := by
  constructor
  · rintro ⟨i, hd, rfl⟩
    obtain ⟨o, hlegal, rfl⟩ := legalAs_of_decode hd
    rwa [commandOf, opcodeOfInstr_buildInstr]
  · exact fun h => ⟨commandOf o v, decode_of_legalAs h, opcodeOfInstr_buildInstr ..⟩

theorem unusedFieldSet_eq_false_iff (o : Opcode) (v : Word) :
    unusedFieldSet o v = false ↔ (usesRd o = false → fieldRd v = 0) ∧ (usesRa o = false → fieldRa v = 0) ∧
      (usesRb o = false → fieldRb v = 0) := by
  simp [unusedFieldSet, and_assoc]

/-! Decoding and encoding are inverse to each other (R73, R74). -/

theorem fields_encode (i : Instr) :
    cmdHigh (encode i) = 0 ∧ fieldRsv (encode i) = 0 ∧ fieldRb (encode i) = .ofFin (rbField i) ∧
      fieldRa (encode i) = .ofFin (raField i) ∧ fieldRd (encode i) = .ofFin (rdField i) := by
  obtain ⟨hhigh, hlow⟩ := fields_setWidth (encodeWord i)
  obtain ⟨hrsv, hrb, hra, hrd, -⟩ := wordOfFields_inj.mp hlow
  exact ⟨hhigh, hrsv, hrb, hra, hrd⟩

theorem legalAs_encode (i : Instr) : LegalAs (opcodeOfInstr i) (encode i) := by
  obtain ⟨hhigh, hrsv, hrb, hra, hrd⟩ := fields_encode i
  refine ⟨hhigh, fieldOp_encode i, hrsv, (unusedFieldSet_eq_false_iff _ _).mpr ⟨fun h => ?_, fun h => ?_, fun h => ?_⟩⟩
  · rw [hrd, rdField_unused h]; rfl
  · rw [hra, raField_unused h]; rfl
  · rw [hrb, rbField_unused h]; rfl

theorem commandOf_encode (i : Instr) : commandOf (opcodeOfInstr i) (encode i) = i := by
  obtain ⟨-, -, hrb, hra, hrd⟩ := fields_encode i
  rw [commandOf, hrb, hra, hrd]
  exact buildInstr_fields i

/-- Settles O1: the word of a command has the shape of its opcode, and its fields rebuild the command. -/
theorem decodeOfEncodeIsTheCommand : Obligations.DecodeOfEncodeIsTheCommand := by
  unfold Obligations.DecodeOfEncodeIsTheCommand
  exact fun i => (decode_eq_cmd_iff _ i).mpr ⟨opcodeOfInstr i, legalAs_encode i, commandOf_encode i⟩

theorem rdField_buildInstr (o : Opcode) (rd ra rb : FReg) :
    rdField (buildInstr o rd ra rb) = if usesRd o then rd else 0 := by
  cases o <;> rfl

theorem raField_buildInstr (o : Opcode) (rd ra rb : FReg) :
    raField (buildInstr o rd ra rb) = if usesRa o then ra else 0 := by
  cases o <;> rfl

theorem rbField_buildInstr (o : Opcode) (rd ra rb : FReg) :
    rbField (buildInstr o rd ra rb) = if usesRb o then rb else 0 := by
  cases o <;> rfl

/-- Dropping an unused field loses nothing when the field is 0. -/
theorem ofFin_ite_toFin {used : Bool} {x : BitVec 4} (h : used = false → x = 0) :
    BitVec.ofFin (if used then x.toFin else 0) = x := by
  cases used
  · rw [h rfl]; rfl
  · rfl

theorem encodeWord_commandOf {o : Opcode} {v : Word} (h : LegalAs o v) : encodeWord (commandOf o v) = fieldsWord v := by
  obtain ⟨hrd, hra, hrb⟩ := (unusedFieldSet_eq_false_iff o v).mp h.unused
  rw [encodeWord, packFields, commandOf, opcodeOfInstr_buildInstr, rdField_buildInstr, raField_buildInstr,
    rbField_buildInstr, ofFin_ite_toFin hrd, ofFin_ite_toFin hra, ofFin_ite_toFin hrb, fieldsWord, wordOfFields, h.op, h.rsv]

/-- Settles O2: a legal value has the fields of the word of its command, and a zero upper half. -/
theorem legalWordHasOneSpelling : Obligations.LegalWordHasOneSpelling := by
  unfold Obligations.LegalWordHasOneSpelling
  intro v i h
  obtain ⟨o, hlegal, rfl⟩ := legalAs_of_decode h
  rw [encode, encodeWord_commandOf hlegal, setWidth_fieldsWord hlegal.high]

/-! The rows of the opcode table (R79). -/

/-- The mask of a register field in a row: all of the field where the opcode does not use it. -/
def fieldMask (used : Bool) : BitVec 4 := if used then 0 else BitVec.allOnes 4

theorem and_fieldMask_eq_zero_iff (x : BitVec 4) (used : Bool) :
    x &&& fieldMask used = 0 ↔ (used = false → x = 0) := by
  cases used
  · simp only [fieldMask, Bool.false_eq_true, if_false, BitVec.and_allOnes, forall_const]
  · simp [fieldMask]

/-- Every row fixes the number of its opcode, `rsv` and the unused register fields. -/
theorem opcodeTable_row {r : TableRow} (h : r ∈ opcodeTable) :
    r.matchBits = wordOfFields 0 0 0 0 (opcodeNumber r.opcode) ∧
    r.maskBits = wordOfFields (BitVec.allOnes 12) (fieldMask (usesRb r.opcode)) (fieldMask (usesRa r.opcode))
      (fieldMask (usesRd r.opcode)) (BitVec.allOnes 8) := by
  revert r
  decide

/-- A word has the fixed bits of a row exactly when it has the shape of the row's opcode. -/
theorem matchesWord_iff_legalAs {r : TableRow} (h : r ∈ opcodeTable) (w : BitVec 32) :
    r.matchesWord w = true ↔ LegalAs r.opcode (w.setWidth 64) := by
  obtain ⟨hmatch, hmask⟩ := opcodeTable_row h
  obtain ⟨hhigh, hlow⟩ := fields_setWidth w
  rw [TableRow.matchesWord, beq_iff_eq, hmatch, hmask]
  conv_lhs => rw [← hlow, fieldsWord, wordOfFields_and, wordOfFields_inj]
  simp only [BitVec.and_allOnes, and_fieldMask_eq_zero_iff]
  constructor
  · exact fun ⟨hrsv, hrb, hra, hrd, hop⟩ =>
      ⟨hhigh, hop, hrsv, (unusedFieldSet_eq_false_iff _ _).mpr ⟨hrd, hra, hrb⟩⟩
  · intro hlegal
    obtain ⟨hrd, hra, hrb⟩ := (unusedFieldSet_eq_false_iff _ _).mp hlegal.unused
    exact ⟨hlegal.rsv, hrb, hra, hrd, hlegal.op⟩

/-- Settles O3: both sides say that the word has the shape of the row's opcode. -/
theorem decodeAgreesWithTableRows : Obligations.DecodeAgreesWithTableRows := by
  unfold Obligations.DecodeAgreesWithTableRows
  intro w r hr
  rw [exists_decode_opcode_iff, matchesWord_iff_legalAs hr]

/-! Words of the spec and the pseudo-instructions (R78, R79). -/

/-- Settles O5: the legal words are encodings of their commands, the illegal ones meet their condition. -/
theorem sampleWordsDecode : Obligations.SampleWordsDecode := by
  unfold Obligations.SampleWordsDecode
  have hlegal := decodeOfEncodeIsTheCommand
  exact ⟨hlegal (.zero 7), hlegal (.enc 1), hlegal (.add 3 1 2), hlegal (.powc 2 1), hlegal (.sqrt 2 1),
    hlegal (.eq 1 2), by decide, by decide, by decide, decode_high (by decide)⟩

/-- Settles O6: the words of R78 are the encodings of the expansions, and `SEL` with equal sources has one result. -/
theorem pseudoInstructionsExpand : Obligations.PseudoInstructionsExpand := by
  unfold Obligations.PseudoInstructionsExpand
  intro rd ra s
  refine ⟨rfl, rfl, rfl, ?_, ?_, ?_, ?_⟩
  · exact Laws.WordOfFields.add rd ra ra ▸ decodeOfEncodeIsTheCommand (.add rd ra ra)
  · exact Laws.WordOfFields.sel rd ra ra ▸ decodeOfEncodeIsTheCommand (.sel rd ra ra)
  · exact Laws.WordOfFields.zero rd ▸ decodeOfEncodeIsTheCommand (.zero rd)
  · rw [expandPseudo, exec_sel, execSel_eq, ite_self]

end Sys2Proof
end

section
/-! The 4x4 product and the squaring product are exact, and what follows for `mont_mul` (spec/40_limb_carry.md R106,
R107, spec/42_ring_ops.md R143, R150). -/

namespace Sys2Proof.Machine

/-- Eight limbs are fixed by their number, and both products of `a` by itself are `a * a` (R107). -/
theorem sqr4_eq_mul4x4 (a : U256) : sqr4 a = mul4x4 a a :=
  U512.toNat_inj ((sqr4_toNat a).trans (mul4x4_toNat a a).symm)

/-- The order of the operands changes the schoolbook rows but not the 512-bit product (R106). -/
theorem mul4x4_comm (a b : U256) : mul4x4 a b = mul4x4 b a := by
  apply U512.toNat_inj
  rw [mul4x4_toNat, mul4x4_toNat, Nat.mul_comm]

/-- The raw results agree on every pair of operands, since `redc` gets the same product (R150). -/
theorem montMul_comm (a b : U256) : montMul a b = montMul b a := by
  rw [montMul, montMul, mul4x4_comm]

/-- Settles O10: both products by their values, the Montgomery forms by `redc` of equal products. -/
theorem productsAreExact : Obligations.ProductsAreExact := by
  unfold Obligations.ProductsAreExact
  exact ⟨mul4x4_toNat, fun a => ⟨sqr4_eq_mul4x4 a, sqr4_toNat a, montSqr_eq_montMul a⟩, montMul_comm⟩

end Sys2Proof.Machine
end

section
/-! What the statements of single commands share: the word of a command decodes to it, and a register write has the
frame `writesOnlyF` (spec/30_encoding.md R70, R73; spec/10_state.md R23). -/

namespace Sys2Proof.Machine

theorem decode_commandWord (i : Instr) :
    decode (commandWord (opcodeNumber (opcodeOfInstr i)).toNat (rdField i) (raField i) (rbField i)) = .cmd i :=
  Laws.WordOfFields.of_fields i ▸ decodeOfEncodeIsTheCommand i

theorem writesOnlyF_writeF (s : State) (rd : FReg) (v : U256) : writesOnlyF rd s (writeF s rd v) :=
  ⟨fun _ hj => readF_writeF_of_ne s v hj, fun _ => rfl, ⟨rfl, rfl, rfl, rfl⟩, ⟨rfl, rfl⟩⟩

end Sys2Proof.Machine
end

section
/-! The representation commands `ZERO`, `ONE`, `FROMU64`, `DEC`, `ENC` and their round trips (spec/41_representation.md
R120 to R127). Encoding is `mont`, decoding its inverse `fromMont` on canonical values. -/

namespace Sys2Proof.Machine

/-! Into and out of Montgomery form (R122, R125). -/

/-- The factor `R2` of `mont_mul` is one `RADIX` more than the reduction takes away (R122: `n * R2 / R = n * R`). -/
theorem montMul_r2 (x : U256) : montMul x Config.r2 = mont x.toNat := by
  have hr2 : Config.r2.toNat ≡ Config.radix * Config.radix [MOD Config.q] := by
    rw [r2_toNat]
    exact Nat.mod_modEq _ _
  have hinv : Config.radix * radixInv ≡ 1 [MOD Config.q] := radix_mul_radixInv
  apply U256.toNat_inj
  rw [montMul_toNat (mul_lt_of_reduced_right reduced_r2), mont_toNat]
  calc x.toNat * Config.r2.toNat * radixInv
      ≡ x.toNat * (Config.radix * Config.radix) * radixInv [MOD Config.q] := (hr2.mul_left _).mul_right _
    _ = x.toNat * Config.radix * (Config.radix * radixInv) := by simp only [mul_assoc]
    _ ≡ x.toNat * Config.radix * 1 [MOD Config.q] := hinv.mul_left _
    _ = x.toNat * Config.radix := mul_one _

theorem val_mont_of_lt {n : Nat} (h : n < Config.q) : val (mont n) = n := by
  rw [val_mont, Nat.mod_eq_of_lt h]

theorem reduced_fromMont (v : U256) : reduced (fromMont v) := by
  rw [reduced, fromMont_toNat]
  exact val_lt v

theorem fromMont_mont {x : U256} (h : reduced x) : fromMont (mont x.toNat) = x := by
  apply U256.toNat_inj
  rw [fromMont_toNat, val_mont_of_lt h]

theorem mont_fromMont {v : U256} (h : reduced v) : mont (fromMont v).toNat = v := by
  rw [fromMont_toNat, mont_val h]

/-- The top limb of a canonical value is at most that of the modulus (R126). -/
theorem top_limb_le_of_reduced {v : U256} (h : reduced v) : v.l3.toNat ≤ 0x73eda753299d7d48 := by
  rw [reduced, U256.toNat, q_eq] at h
  omega

/-! The data buffer as the result of `ENC` and as the operand of `FROMU64` (R122, R126). -/

@[simp] theorem readData_three_writeDataAll (s : State) (v : U256) : readData (writeDataAll s v) 3 = v.l3 := rfl

theorem smallOperand_toNat (s : State) : (smallOperand s).toNat = (readData s 0).toNat := by
  simp [smallOperand, U256.toNat]

/-- A data buffer below `2^64` has only its lowest word (R127). -/
theorem readData_zero_of_lt {s : State} (h : (dataV s).toNat < 2 ^ 64) : (readData s 0).toNat = (dataV s).toNat := by
  simp only [dataV, U256.toNat] at h ⊢
  omega

theorem lt_q_of_lt_two_pow_64 {n : Nat} (h : n < 2 ^ 64) : n < Config.q := h.trans (by decide)

/-! The meanings of `FROMU64` and `DEC`, with `mont` for the multiplication by `R2` (R122, R124). -/

theorem exec_fromu64_eq_mont (rd : FReg) (s : State) :
    exec (.fromu64 rd) s = .next (writeF s rd (mont (readData s 0).toNat)) := by
  rw [exec_fromu64, montMul_r2, smallOperand_toNat]

theorem exec_dec_of_reduced (rd : FReg) {s : State} (h : reduced (dataV s)) :
    exec (.dec rd) s = .next (setNone (writeF s rd (mont (dataV s).toNat)) false) := by
  rw [exec_dec, execDec_eq, if_pos h, montMul_r2]

theorem exec_dec_of_not_reduced (rd : FReg) {s : State} (h : ¬ reduced (dataV s)) :
    exec (.dec rd) s = .next (setNone s true) := by
  rw [exec_dec, execDec_eq, if_neg h]

/-! The statements. -/

/-- Settles O18: the operand is `DATA[0]` alone, below `q`, and the product with `R2` is its Montgomery form. -/
theorem fromU64LiftsDataZero : Obligations.FromU64LiftsDataZero := by
  unfold Obligations.FromU64LiftsDataZero
  intro rd s
  refine ⟨decode_commandWord (.fromu64 rd), _, exec_fromu64_eq_mont rd s, readF_writeF_same .., ?_,
    writesOnlyF_writeF ..⟩
  rw [readF_writeF_same, val_mont_of_lt (lt_q_of_lt_two_pow_64 (readData s 0).isLt)]

/-- Settles O19, by whether the data buffer is canonical: the register is loaded, or `NONE` alone is written. -/
theorem decLoadsCanonicalOnly : Obligations.DecLoadsCanonicalOnly := by
  unfold Obligations.DecLoadsCanonicalOnly
  intro rd s
  refine ⟨decode_commandWord (.dec rd), ?_⟩
  by_cases h : reduced (dataV s)
  · refine ⟨_, exec_dec_of_reduced rd h, fun _ => rfl, ⟨rfl, rfl⟩, rfl, rfl, rfl, fun j hj => ?_,
      fun _ => ⟨rfl, ?_, ?_⟩, fun hge => absurd h hge.not_gt⟩
    · rw [readF_setNone, readF_writeF_of_ne s _ hj]
    · rw [readF_setNone, readF_writeF_same]
    · rw [readF_setNone, readF_writeF_same, val_mont_of_lt h]
  · exact ⟨_, exec_dec_of_not_reduced rd h, fun _ => rfl, ⟨rfl, rfl⟩, rfl, rfl, rfl, fun _ _ => rfl,
      fun hlt => absurd hlt h, fun _ => ⟨rfl, rfl⟩⟩

/-- Settles O20: the buffer holds `from_mont` of the register, which is canonical for every register content. -/
theorem encWritesCanonicalValue : Obligations.EncWritesCanonicalValue := by
  unfold Obligations.EncWritesCanonicalValue
  intro ra s
  have hreduced := reduced_fromMont (readF s ra)
  refine ⟨decode_commandWord (.enc ra), _, exec_enc ra s, ?_, ?_, ?_, fun _ => rfl, ⟨rfl, rfl, rfl, rfl⟩, ⟨rfl, rfl⟩⟩
  · rw [dataV_writeDataAll, fromMont_toNat]
  · rw [dataV_writeDataAll]
    exact hreduced
  · rw [readData_three_writeDataAll]
    exact top_limb_le_of_reduced hreduced

/-- `DEC` of a canonical value that is written to the data buffer (R124). -/
theorem exec_dec_writeDataAll (rd : FReg) (s : State) {x : U256} (h : reduced x) :
    exec (.dec rd) (writeDataAll s x) = .next (setNone (writeF (writeDataAll s x) rd (mont x.toNat)) false) := by
  have hs : reduced (dataV (writeDataAll s x)) := by rwa [dataV_writeDataAll]
  rw [exec_dec_of_reduced rd hs, dataV_writeDataAll]

/-- Settles O32: `mont` and `fromMont` are inverse on canonical values, and `FROMU64` and `DEC` both apply `mont`. -/
theorem encodeDecodeRoundTrips : Obligations.EncodeDecodeRoundTrips := by
  unfold Obligations.EncodeDecodeRoundTrips
  refine ⟨fun rd ra s h => ?_, fun rd s h => ?_, fun rd s h => ?_⟩
  · refine ⟨_, _, exec_enc ra s, exec_dec_writeDataAll rd s (reduced_fromMont (readF s ra)), ?_, rfl⟩
    rw [readF_setNone, readF_writeF_same, mont_fromMont h]
  · refine ⟨_, _, exec_dec_of_reduced rd h, exec_enc rd _, ?_⟩
    rw [dataV_writeDataAll, readF_setNone, readF_writeF_same, fromMont_mont h]
  · have hq := lt_q_of_lt_two_pow_64 h
    refine ⟨_, _, exec_fromu64_eq_mont rd s, exec_dec_of_reduced rd hq, ?_, ?_⟩
    · rw [readF_setNone, readF_writeF_same, readF_writeF_same, readData_zero_of_lt h]
    · rw [readF_writeF_same, readData_zero_of_lt h, val_mont_of_lt hq]

theorem val_zero : val U256.zero = 0 := by decide

theorem val_rOne : val Config.rOne = 1 := by decide

/-- Settles O16: the register write of the zero limbs, which stand for 0. -/
theorem zeroWritesZero : Obligations.ZeroWritesZero := by
  unfold Obligations.ZeroWritesZero
  intro rd s
  refine ⟨decode_commandWord (.zero rd), _, exec_zero rd s, readF_writeF_same .., ?_, writesOnlyF_writeF ..⟩
  rw [readF_writeF_same, val_zero]

/-- Settles O17: the register write of the constant `R`, which stands for 1. -/
theorem oneWritesMontgomeryOne : Obligations.OneWritesMontgomeryOne := by
  unfold Obligations.OneWritesMontgomeryOne
  intro rd s
  refine ⟨decode_commandWord (.one rd), _, exec_one rd s, readF_writeF_same .., ?_, writesOnlyF_writeF ..⟩
  rw [readF_writeF_same, val_rOne]

end Sys2Proof.Machine
end

section
/-! The ring commands `NEG`, `ADD`, `SUB`, `MUL`, `SQR` (spec/42_ring_ops.md R147 to R151). Each operation of the
datapath acts on the stored representatives as on the logical values, since `val` is linear in the
representative (R147). -/

namespace Sys2Proof.Machine

/-! The operations in `ZMod q`. -/

/-- A logical value is known from its element of `ZMod q`, as it lies below `q` (R12). -/
theorem val_eq_mod_iff {v : U256} {n : Nat} : val v = n % Config.q ↔ fieldVal v = n := by
  rw [fieldVal, ZMod.natCast_eq_natCast_iff', Nat.mod_eq_of_lt (val_lt v)]

/-- The difference the subtractor computes without a negative number (R144). -/
theorem natCast_add_q_sub (m : Nat) {n : Nat} (h : n < Config.q) :
    ((m + Config.q - n : Nat) : ZMod Config.q) = m - n := by
  rw [Nat.cast_sub (h.le.trans (Nat.le_add_left ..)), Nat.cast_add, ZMod.natCast_self, add_zero]

theorem natCast_q_sub {n : Nat} (h : n < Config.q) : ((Config.q - n : Nat) : ZMod Config.q) = -n := by
  rw [Nat.cast_sub h.le, ZMod.natCast_self, zero_sub]

/-- `neg_mod` is the negation of the field (R146). -/
theorem fieldVal_negMod {a : U256} (ha : reduced a) : fieldVal (negMod a) = -fieldVal a := by
  rw [fieldVal_eq_mul, fieldVal_eq_mul, negMod_reduced ha, ZMod.natCast_mod, natCast_q_sub ha, neg_mul]

/-- `add_mod` is the sum of the field (R145). -/
theorem fieldVal_addMod {a b : U256} (ha : reduced a) (hb : reduced b) :
    fieldVal (addMod a b) = fieldVal a + fieldVal b := by
  simp only [fieldVal_eq_mul, addMod_reduced ha hb, ZMod.natCast_mod, Nat.cast_add, add_mul]

/-- `sub_mod` is the difference of the field (R144). -/
theorem fieldVal_subMod {a b : U256} (ha : reduced a) (hb : reduced b) :
    fieldVal (subMod a b) = fieldVal a - fieldVal b := by
  simp only [fieldVal_eq_mul, subMod_reduced ha hb, ZMod.natCast_mod, natCast_add_q_sub _ hb, sub_mul]

/-! The operations on logical values in `[0, q)`. -/

theorem val_negMod {a : U256} (ha : reduced a) : val (negMod a) = (Config.q - val a) % Config.q := by
  rw [val_eq_mod_iff, fieldVal_negMod ha, natCast_q_sub (val_lt a), fieldVal]

theorem val_addMod {a b : U256} (ha : reduced a) (hb : reduced b) :
    val (addMod a b) = (val a + val b) % Config.q := by
  rw [val_eq_mod_iff, fieldVal_addMod ha hb, Nat.cast_add, fieldVal, fieldVal]

theorem val_subMod {a b : U256} (ha : reduced a) (hb : reduced b) :
    val (subMod a b) = (val a + Config.q - val b) % Config.q := by
  rw [val_eq_mod_iff, fieldVal_subMod ha hb, natCast_add_q_sub _ (val_lt b), fieldVal, fieldVal]

theorem val_montMul {a b : U256} (h : reduced a ∨ reduced b) : val (montMul a b) = val a * val b % Config.q := by
  rw [val_eq_mod_iff, fieldVal_montMul h, Nat.cast_mul, fieldVal, fieldVal]

/-! The statements. -/

/-- Settles O21: `neg_mod` negates the representative and the logical value alike. -/
theorem negIsModularNegation : Obligations.NegIsModularNegation := by
  unfold Obligations.NegIsModularNegation
  intro rd ra s ha
  refine ⟨decode_commandWord (.neg rd ra), _, exec_neg rd ra s, ?_⟩
  rw [readF_writeF_same]
  exact ⟨negMod_is_reduced ha, negMod_reduced ha, val_negMod ha, writesOnlyF_writeF ..⟩

/-- Settles O22: `add_mod` adds the representatives and the logical values alike. -/
theorem addIsModularAddition : Obligations.AddIsModularAddition := by
  unfold Obligations.AddIsModularAddition
  intro rd ra rb s ha hb
  refine ⟨decode_commandWord (.add rd ra rb), _, exec_add rd ra rb s, ?_⟩
  rw [readF_writeF_same]
  exact ⟨addMod_is_reduced ha hb, addMod_reduced ha hb, val_addMod ha hb, writesOnlyF_writeF ..⟩

/-- Settles O23: `sub_mod` subtracts `F[rb]` from `F[ra]`, the representatives and the logical values alike. -/
theorem subIsModularSubtraction : Obligations.SubIsModularSubtraction := by
  unfold Obligations.SubIsModularSubtraction
  intro rd ra rb s ha hb
  refine ⟨decode_commandWord (.sub rd ra rb), _, exec_sub rd ra rb s, ?_⟩
  rw [readF_writeF_same]
  exact ⟨subMod_is_reduced ha hb, subMod_reduced ha hb, val_subMod ha hb, writesOnlyF_writeF ..⟩

/-- Settles O24: `mont_mul` takes one `RADIX` out of the product of two representatives, which leaves the logical
product. -/
theorem mulIsFieldMultiplication : Obligations.MulIsFieldMultiplication := by
  unfold Obligations.MulIsFieldMultiplication
  intro rd ra rb s ha _
  refine ⟨decode_commandWord (.mul rd ra rb), _, exec_mul rd ra rb s, ?_⟩
  rw [readF_writeF_same]
  exact ⟨montMul_reduced (.inl ha), val_montMul (.inl ha), writesOnlyF_writeF ..⟩

/-- The whole next state is that of `MUL`, since `mont_sqr` is `mont_mul` bit for bit (R143). -/
theorem exec_sqr_eq_exec_mul (rd ra : FReg) (s : State) : exec (.sqr rd ra) s = exec (.mul rd ra ra) s := by
  rw [exec_sqr, exec_mul, montSqr_eq_montMul]

/-- Settles O25: `SQR Fd, Fa` is `MUL Fd, Fa, Fa` under a command word of its own. -/
theorem sqrIsFieldSquaring : Obligations.SqrIsFieldSquaring := by
  unfold Obligations.SqrIsFieldSquaring
  intro rd ra s ha
  obtain ⟨-, hmul⟩ := mulIsFieldMultiplication rd ra ra s ha ha
  refine ⟨decode_commandWord (.sqr rd ra), exec_sqr_eq_exec_mul rd ra s, ?_⟩
  rw [exec_sqr_eq_exec_mul]
  exact hmul

end Sys2Proof.Machine
end

section
/-! The exponentiation commands `POWC`, `POWV` (spec/43_exponentiation.md R170 to R174): both engines go through the same
accumulators, and their operations depend on the bits of the exponent at most. -/

namespace Sys2Proof.Machine

/-! The values of the engines (R172). -/

/-- The selected value and the taken branch agree in every round (R170, R171). -/
theorem powVtLoop_eq_powCtLoop (b e : U256) (n : Nat) (acc : U256) : powVtLoop b e n acc = powCtLoop b e n acc := by
  induction n generalizing acc with
  | zero => rw [powVtLoop_zero, powCtLoop_zero]
  | succ n ih => rw [powVtLoop_succ, powCtLoop_succ, ih]

theorem powVt_eq_powCt (b e : U256) : powVt b e = powCt b e := by
  rw [powVt, powCt, powVtLoop_eq_powCtLoop]

/-- No premise on the base: the accumulator is reduced from the start, so `mont_mul` is in its range (R142). -/
theorem val_powCt (b e : U256) : val (powCt b e) = val b ^ e.toNat % Config.q := by
  rw [val_eq_mod_iff, ← powVt_eq_powCt, fieldVal_powVt, Nat.cast_pow, fieldVal]

theorem powCt_eq_mont (b e : U256) : powCt b e = mont (val b ^ e.toNat % Config.q) := by
  rw [← val_powCt, mont_val (powCt_is_reduced b e)]

/-! The operations of the engines (spec/70_reset_and_hazards.md R276, R277). -/

theorem powCtLogLoop_snd (b e : U256) (n : Nat) (acc : U256) :
    (powCtLogLoop b e n acc).2 = (List.replicate n [TraceOp.sqr, .mul, .sel]).flatten := by
  induction n generalizing acc with
  | zero => rfl
  | succ n ih =>
    simp only [powCtLogLoop_succ, ih, List.replicate_succ, List.flatten_cons, List.cons_append, List.nil_append]

/-- `pow_ct` performs the same operations for every base and exponent (R276). -/
theorem powCtLog_snd (b e : U256) :
    (powCtLog b e).2 = (List.replicate 256 [TraceOp.sqr, .mul, .sel]).flatten := by
  rw [powCtLog, powCtLogLoop_snd]

theorem powVtLogLoop_snd (b e : U256) (n : Nat) (acc : U256) :
    (powVtLogLoop b e n acc).2 =
      (List.range n).reverse.flatMap (fun i => if e.bit i then [TraceOp.sqr, .mul] else [.sqr]) := by
  induction n generalizing acc with
  | zero => rfl
  | succ n ih =>
    simp only [powVtLogLoop_succ, ih, List.range_succ, List.reverse_concat, List.flatMap_cons]
    split <;> rfl

/-- `pow_vt` performs the operations that the bits of the exponent spell, whatever the base (R277). -/
theorem powVtLog_snd (b e : U256) : (powVtLog b e).2 = powBitsTrace e := by
  rw [powVtLog, powVtLogLoop_snd, powBitsTrace]

/-! The traces of the commands. The engine stands as a variable while the dispatch takes its branch: the kernel would
otherwise run it on a symbolic base. -/

theorem instrTrace_powc (rd ra : FReg) (s : State) :
    instrTrace (.powc rd ra) s = (powCtLog (readF s ra) (exponentOperand s)).2 := by
  obtain ⟨engine, hengine⟩ : ∃ engine, engine = powCtLog := ⟨_, rfl⟩
  rw [instrTrace.eq_def, ← hengine]

theorem instrTrace_powv (rd ra : FReg) (s : State) :
    instrTrace (.powv rd ra) s = (powVtLog (readF s ra) (exponentOperand s)).2 := by
  obtain ⟨engine, hengine⟩ : ∃ engine, engine = powVtLog := ⟨_, rfl⟩
  rw [instrTrace.eq_def, ← hengine]

theorem trace_of_decode {v : Word} {i : Instr} (s : State) (h : decode v = .cmd i) : trace s v = instrTrace i s := by
  rw [trace, h]

theorem trace_powc (rd ra : FReg) (s : State) :
    trace s (commandWord 0x10 rd ra 0) = (List.replicate 256 [TraceOp.sqr, .mul, .sel]).flatten := by
  have hdecode : decode (commandWord 0x10 rd ra 0) = .cmd (.powc rd ra) := decode_commandWord (.powc rd ra)
  rw [trace_of_decode s hdecode, instrTrace_powc, powCtLog_snd]

theorem trace_powv (rd ra : FReg) (s : State) : trace s (commandWord 0x11 rd ra 0) = powBitsTrace (dataV s) := by
  have hdecode : decode (commandWord 0x11 rd ra 0) = .cmd (.powv rd ra) := decode_commandWord (.powv rd ra)
  rw [trace_of_decode s hdecode, instrTrace_powv, powVtLog_snd, exponentOperand]

/-! The statements. -/

/-- Settles O11: the value of `pow_ct` is the power modulo `q`, which fixes it as it is reduced; `pow_vt` goes through
the same accumulators. -/
theorem powerEnginesGiveThePower : Obligations.PowerEnginesGiveThePower := by
  unfold Obligations.PowerEnginesGiveThePower
  intro b e _
  exact ⟨powCt_eq_mont b e, powVt_eq_powCt b e, powCt_is_reduced b e⟩

/-- Settles O26: a register write of the value of `pow_ct` at `DATAV`; the trace is one fixed sequence. -/
theorem powcIsExponentiation : Obligations.PowcIsExponentiation := by
  unfold Obligations.PowcIsExponentiation
  intro rd ra s _
  refine ⟨decode_commandWord (.powc rd ra), fun u => ?_, _, exec_powc rd ra s, ?_⟩
  · rw [trace_powc, trace_powc]
  · rw [readF_writeF_same, exponentOperand]
    exact ⟨powCt_is_reduced .., val_powCt .., writesOnlyF_writeF ..⟩

/-- The whole next state is that of `POWC` with the same operands (R174). -/
theorem exec_powv_eq_exec_powc (rd ra : FReg) (s : State) : exec (.powv rd ra) s = exec (.powc rd ra) s := by
  rw [exec_powv, exec_powc, powVt_eq_powCt]

/-- Settles O27: `POWV` has the effect of `POWC`, and a trace that its exponent `DATAV` spells. -/
theorem powvIsExponentiation : Obligations.PowvIsExponentiation := by
  unfold Obligations.PowvIsExponentiation
  intro rd ra s ha
  obtain ⟨-, -, hpowc⟩ := powcIsExponentiation rd ra s ha
  refine ⟨decode_commandWord (.powv rd ra), exec_powv_eq_exec_powc rd ra s, fun u hu => ?_, ?_⟩
  · rw [trace_powv, trace_powv, hu]
  · rw [exec_powv_eq_exec_powc]
    exact hpowc

end Sys2Proof.Machine
end

section
/-! The inversion command `INV` (spec/44_inversion.md R190 to R192): its value is the power `q - 2`, whatever conforming
schedule computes it. -/

namespace Sys2Proof.Machine

/-! The steps of a chain, one rule per operand and step (R191). They are rewritten with, never closed by `rfl` at a
value of the datapath: the kernel would otherwise run the multiplier on a symbolic operand. -/

theorem chainSrc_input (a : U256) (tmps : List U256) : chainSrc a tmps .input = a := rfl

theorem chainSrc_newest (a v : U256) (older : List U256) : chainSrc a (v :: older) (.tmp 0) = v := rfl

theorem headD_eq_chainSrc_newest (a v : U256) (older : List U256) :
    (v :: older).headD a = chainSrc a (v :: older) (.tmp 0) := rfl

theorem chainRun_nil (a : U256) (tmps : List U256) : chainRun a tmps [] = tmps := rfl

theorem chainRun_sqr (a : U256) (tmps : List U256) (src : ChainSrc) (rest : List ChainStep) :
    chainRun a tmps (.sqr src :: rest) = chainRun a (montSqr (chainSrc a tmps src) :: tmps) rest := by
  rw [chainRun_cons, chainStep]

theorem chainRun_mul (a : U256) (tmps : List U256) (x y : ChainSrc) (rest : List ChainStep) :
    chainRun a tmps (.mul x y :: rest) =
      chainRun a (montMul (chainSrc a tmps x) (chainSrc a tmps y) :: tmps) rest := by
  rw [chainRun_cons, chainStep]

/-! The straight-line chain read off the bits of an exponent (R191). -/

/-- The newest intermediate after the steps of one bit is the accumulator of `pow_ct` after the round of that bit. -/
theorem chainRun_squareMultiply (a : U256) (tmps : List U256) (bit : Bool) (src : ChainSrc) :
    ∃ older, chainRun a tmps (if bit then [.sqr src, .mul (.tmp 0) .input] else [.sqr src]) =
      (if bit then montMul (montSqr (chainSrc a tmps src)) a else montSqr (chainSrc a tmps src)) :: older := by
  cases bit with
  | false =>
    refine ⟨tmps, ?_⟩
    rw [if_neg Bool.false_ne_true, if_neg Bool.false_ne_true, chainRun_sqr, chainRun_nil]
  | true =>
    refine ⟨montSqr (chainSrc a tmps src) :: tmps, ?_⟩
    rw [if_pos rfl, if_pos rfl, chainRun_sqr, chainRun_mul, chainRun_nil, chainSrc_newest, chainSrc_input]

/-- The chain goes through the accumulators of `pow_ct`, from the value of its first operand. -/
theorem chainRun_binaryChainFrom (a e : U256) (n : Nat) {tmps : List U256} {src : ChainSrc}
    (h : tmps.headD a = chainSrc a tmps src) :
    (chainRun a tmps (binaryChainFrom e.toNat n src)).headD a = powCtLoop a e n (chainSrc a tmps src) := by
  induction n generalizing tmps src with
  | zero => rw [binaryChainFrom, chainRun_nil, powCtLoop_zero, h]
  | succ n ih =>
    obtain ⟨older, hrun⟩ := chainRun_squareMultiply a tmps (e.bit n) src
    rw [powCtLoop_succ, binaryChainFrom, chainRun_append, ← U256.bit, hrun, ih (headD_eq_chainSrc_newest ..),
      chainSrc_newest]

/-- Past its first operand, the chain names the input and the newest intermediate only. -/
theorem chainScoped_binaryChainFrom (e n : Nat) {defined : Nat} {src : ChainSrc} (h : src.scoped defined = true) :
    chainScoped defined (binaryChainFrom e n src) = true := by
  have hinput (k : Nat) : ChainSrc.scoped k .input = true := rfl
  have hnewest (k : Nat) : ChainSrc.scoped (k + 1) (.tmp 0) = true := decide_eq_true k.succ_pos
  induction n generalizing defined src with
  | zero => rfl
  | succ n ih =>
    rw [binaryChainFrom]
    split <;> simp [chainScoped, ChainStep.scoped, h, hinput, hnewest, ih]

theorem montSqr_rOne : montSqr Config.rOne = Config.rOne := by
  rw [eq_rOne_iff (montSqr_is_reduced reduced_rOne), fieldVal_montSqr reduced_rOne, fieldVal_rOne, one_pow]

theorem montMul_rOne_left {a : U256} (ha : reduced a) : montMul Config.rOne a = a := by
  rw [← fieldVal_inj (montMul_reduced (.inr ha)) ha, fieldVal_montMul (.inr ha), fieldVal_rOne, one_mul]

/-- The highest bit of `q - 2` is bit 254, and its round takes the accumulator from `R` to the base. -/
theorem powCt_expQm2 {a : U256} (ha : reduced a) : powCt a Config.expQm2 = powCtLoop a Config.expQm2 254 a := by
  have h255 : Config.expQm2.bit 255 = false := by decide
  have h254 : Config.expQm2.bit 254 = true := by decide
  rw [powCt, powCtLoop_succ, h255, if_neg Bool.false_ne_true, powCtLoop_succ, h254, if_pos rfl, montSqr_rOne,
    montSqr_rOne, montMul_rOne_left ha]

/-- Settles O13: the chain starts where the round of the highest bit of `q - 2` leaves `pow_ct`, and goes through the
same accumulators. -/
theorem binaryChainConforms : Obligations.BinaryChainConforms := by
  unfold Obligations.BinaryChainConforms
  obtain ⟨hQm2, -⟩ := exponents_toNat
  refine ⟨chainScoped_binaryChainFrom _ _ rfl, fun a ha => ?_⟩
  rw [binaryInvChain, scheduleRun, ← hQm2, chainRun_binaryChainFrom a _ 254 rfl, powCt_expQm2 ha, chainSrc]

/-! The value and the operations of `INV` (R190; spec/70_reset_and_hazards.md R278). -/

theorem val_powCt_expQm2 (a : U256) : val (powCt a Config.expQm2) = val a ^ (Config.q - 2) % Config.q := by
  obtain ⟨hQm2, -⟩ := exponents_toNat
  rw [val_powCt, hQm2]

/-- Fermat's little theorem: `A ^ (q - 2)` is the inverse of a nonzero `A`. -/
theorem val_powCt_expQm2_mul_val {a : U256} (ha : val a ≠ 0) :
    val (powCt a Config.expQm2) * val a % Config.q = 1 := by
  have hcoprime : (val a).Coprime Config.q := (Nat.coprime_of_lt_prime ha (val_lt a) q_prime).symm
  have hexp : Config.q - 2 + 1 = Config.q.totient := by rw [Nat.totient_prime q_prime]; decide
  rw [val_powCt_expQm2, Nat.mod_mul_mod, ← pow_succ, hexp]
  exact Nat.ModEq.pow_totient hcoprime

/-- A zero base gives the zero limbs (R192). -/
theorem powCt_of_val_eq_zero {b e : U256} (hb : val b = 0) (he : e.toNat ≠ 0) : powCt b e = U256.zero := by
  apply val_inj (powCt_is_reduced b e) (by decide)
  rw [val_powCt, hb, zero_pow he, Nat.zero_mod, val_zero]

/-- The schedule stands as a variable while the dispatch takes its branch, as the engines of `POWC` and `POWV` do. -/
theorem trace_inv (rd ra : FReg) (s : State) :
    trace s (commandWord 0x12 rd ra 0) = scheduleTrace Config.invSchedule := by
  have hdecode : decode (commandWord 0x12 rd ra 0) = .cmd (.inv rd ra) := decode_commandWord (.inv rd ra)
  obtain ⟨ops, hops⟩ : ∃ ops, ops = scheduleTrace := ⟨_, rfl⟩
  rw [trace_of_decode s hdecode, instrTrace.eq_def, ← hops]

/-! The statements. -/

/-- Settles O28: the register is written with the power `q - 2`, and the trace is that of the schedule. -/
theorem invIsModularInverse : Obligations.InvIsModularInverse := by
  unfold Obligations.InvIsModularInverse
  intro rd ra s _
  refine ⟨decode_commandWord (.inv rd ra), fun u => ?_, _, exec_inv rd ra s, ?_⟩
  · rw [trace_inv, trace_inv]
  · rw [readF_writeF_same, invChain_eq]
    exact ⟨powCt_is_reduced .., val_powCt_expQm2 _, val_powCt_expQm2_mul_val,
      fun hzero => powCt_of_val_eq_zero hzero (by decide), writesOnlyF_writeF ..⟩

/-- Settles O12: a conforming schedule gives the value of the machine's own schedule on a reduced operand. -/
theorem inversionScheduleDoesNotMatter : Obligations.InversionScheduleDoesNotMatter := by
  unfold Obligations.InversionScheduleDoesNotMatter
  intro sch hsch rd ra s ha
  rw [exec_inv, invChain_eq, hsch _ ha]

end Sys2Proof.Machine
end

section
/-! The square-root command `SQRT` (spec/45_sqrt.md R200 to R204): its engine tells zero, residue and non-residue apart
by Euler's criterion, and the command writes what the engine ends with. -/

namespace Sys2Proof.Machine

/-! Euler's criterion for the Legendre symbol of step 1 (R200, R204). -/

theorem fieldVal_eq_zero_iff {a : U256} : fieldVal a = 0 ↔ val a = 0 := by
  rw [← Nat.cast_zero, ← val_eq_mod_iff, Nat.zero_mod]

/-- The quadratic residues are the nonzero squares of the field (spec/00_scope.md R15). -/
theorem isResidue_val_iff {a : U256} : isResidue (val a) ↔ fieldVal a ≠ 0 ∧ IsSquare (fieldVal a) := by
  have : Fact Config.q.Prime := ⟨q_prime⟩
  rw [isResidue, Nat.mod_eq_of_lt (val_lt a), ne_eq, ne_eq, fieldVal_eq_zero_iff]
  refine and_congr_right fun _ => ⟨?_, ?_⟩
  · rintro ⟨r, hr⟩
    exact ⟨r, by rw [val_eq_mod_iff.mp hr.symm, Nat.cast_mul]⟩
  · rintro ⟨x, hx⟩
    obtain ⟨r, rfl⟩ := ZMod.natCast_zmod_surjective x
    exact ⟨r, (val_eq_mod_iff.mpr (by rw [hx, Nat.cast_mul])).symm⟩

/-- The Legendre symbol is 0 for 0 only. -/
theorem powVt_expLeg_eq_zero_iff {a : U256} : powVt a Config.expLeg = U256.zero ↔ val a = 0 := by
  have : Fact Config.q.Prime := ⟨q_prime⟩
  have hexp : Config.expLeg.toNat ≠ 0 := by decide
  rw [← fieldVal_inj (powVt_is_reduced _ _) reduced_zero, fieldVal_powVt, fieldVal_eq_zero_iff.mpr val_zero,
    pow_eq_zero_iff hexp, fieldVal_eq_zero_iff]

/-- The Legendre symbol is 1 for the residues only. -/
theorem powVt_expLeg_eq_rOne_iff {a : U256} : powVt a Config.expLeg = Config.rOne ↔ isResidue (val a) := by
  have : Fact Config.q.Prime := ⟨q_prime⟩
  have hexp : Config.expLeg.toNat = Config.q / 2 := by decide
  rw [eq_rOne_iff (powVt_is_reduced _ _), fieldVal_powVt, hexp, isResidue_val_iff]
  by_cases ha : fieldVal a = 0
  · rw [ha, zero_pow (by decide)]
    simp
  · rw [← ZMod.euler_criterion Config.q ha, and_iff_right ha]

/-! The ends of the engine (R200, R202, R204). -/

theorem sqrtVtWith_of_val_eq_zero (c : U256) {a : U256} (ha : val a = 0) : sqrtVtWith c a = .root a := by
  rw [sqrtVtWith_eq, if_pos (powVt_expLeg_eq_zero_iff.mpr ha)]

theorem sqrtVtWith_of_isResidue {c a : U256} (hc : primitiveRoot c) (ha : isResidue (val a)) :
    ∃ v, sqrtVtWith c a = .root v ∧ val v * val v % Config.q = val a := by
  obtain ⟨v, hv, hsq⟩ := sqrtVtWith_root hc (powVt_expLeg_eq_rOne_iff.mpr ha)
  refine ⟨v, hv, (val_eq_mod_iff.mpr ?_).symm⟩
  rw [← hsq, sq, Nat.cast_mul, fieldVal]

theorem sqrtVtWith_of_not_isResidue (c : U256) {a : U256} (hzero : val a ≠ 0) (hres : ¬ isResidue (val a)) :
    sqrtVtWith c a = .noValue := by
  rw [sqrtVtWith_eq, if_neg (powVt_expLeg_eq_zero_iff.not.mpr hzero), if_neg (powVt_expLeg_eq_rOne_iff.not.mpr hres)]

/-! The statements. -/

/-- Settles O14, by the three values of the Legendre symbol. -/
theorem squareRootIsCorrectForEveryRoot : Obligations.SquareRootIsCorrectForEveryRoot := by
  unfold Obligations.SquareRootIsCorrectForEveryRoot
  intro c a hc ha
  refine ⟨sqrtVtWith_of_val_eq_zero c, fun hres => ?_, sqrtVtWith_of_not_isResidue c⟩
  obtain ⟨v, hv, hsq⟩ := sqrtVtWith_of_isResidue hc hres
  exact ⟨v, hv, sqrtVtWith_root_is_reduced ha hv, hsq⟩

/-- Settles O29, by the two ends of a `SQRT` that completes: which operands reach each end is O14 at the machine's root
of unity. -/
theorem sqrtGivesRootOrNoValue : Obligations.SqrtGivesRootOrNoValue := by
  unfold Obligations.SqrtGivesRootOrNoValue
  intro rd ra s ha
  obtain ⟨hzero, hres, hnon⟩ :=
    squareRootIsCorrectForEveryRoot Config.rootOfUnity (readF s ra) rootOfUnityIsPrimitive ha
  rw [← sqrtVt] at hzero hres hnon
  obtain ⟨t, ht⟩ := exec_completes (.sqrt rd ra) s
  refine ⟨decode_commandWord (.sqrt rd ra), t, ht, ?_⟩
  rw [exec_sqrt] at ht
  rcases execSqrt_cases ht with ⟨v, hv, rfl⟩ | ⟨hv, rfl⟩
  · have hrd : readF (setNone (writeF s rd v) false) rd = v := by rw [readF_setNone, readF_writeF_same]
    rw [hv] at hzero hres hnon
    rw [hrd]
    refine ⟨fun j hj => readF_writeF_of_ne s v hj, fun _ => rfl, ⟨rfl, rfl⟩, rfl, rfl, rfl, fun h => ⟨rfl, ?_⟩,
      fun h => ⟨rfl, ?_⟩, fun h h' => absurd (hnon h h') nofun⟩
    · rw [SqrtResult.root.inj (hzero h)]
      exact val_inj ha reduced_zero (h.trans val_zero.symm)
    · obtain ⟨u, hu, hroot⟩ := hres h
      rwa [SqrtResult.root.inj hu]
  · rw [hv] at hzero hres
    refine ⟨fun _ _ => rfl, fun _ => rfl, ⟨rfl, rfl⟩, rfl, rfl, rfl, fun h => absurd (hzero h) nofun, fun h => ?_,
      fun _ _ => ⟨rfl, rfl⟩⟩
    obtain ⟨u, hu, -⟩ := hres h
    exact absurd hu nofun

end Sys2Proof.Machine
end

section
/-! Which of the two roots `SQRT` writes (spec/45_sqrt.md R203). The refinement loop multiplies `a ^ ((t + 1) / 2)` by a
power of `ROOT_OF_UNITY` with an exponent below `2 ^ 31`, and the other root would need an exponent `2 ^ 31` away. -/

namespace Sys2Proof.Machine

/-- The exponent of `c` that a round adds, and what the rounds after it can add to that. -/
theorem round_exponent_lt {n i k : Nat} (hi : i < n) (hk : k < 2 ^ i) :
    2 ^ (n - i - 1) + 2 ^ (n - i) * k < 2 ^ n := by
  have hhalf : 2 ^ (n - i - 1) < 2 ^ (n - i) := Nat.pow_lt_pow_right (by decide) (by omega)
  calc 2 ^ (n - i - 1) + 2 ^ (n - i) * k
    _ < 2 ^ (n - i) * (k + 1) := by rw [mul_add, mul_one]; omega
    _ ≤ 2 ^ (n - i) * 2 ^ i := Nat.mul_le_mul_left _ hk
    _ = 2 ^ n := by rw [← pow_add, Nat.sub_add_cancel hi.le]

/-- A round for the order `i + 1` multiplies `r` by a power of `c`, and replaces `c` by the square of that power. -/
theorem SqrtInv.fieldVal_update {a : ZMod Config.q} {n i : Nat} {v : SqrtVars} (h : SqrtInv a n v) (hi : i < n) :
    fieldVal (sqrtUpdate v (i + 1)).r = fieldVal v.r * fieldVal v.c ^ 2 ^ (n - i - 1) ∧
      fieldVal (sqrtUpdate v (i + 1)).c = fieldVal v.c ^ 2 ^ (n - i) := by
  have hcount : v.m - (i + 1) - 1 = n - i - 1 := by rw [h.m_eq]; omega
  have hc := fieldVal_squareTimes (n - i - 1) h.reducedC
  rw [sqrtUpdate_eq, hcount]
  refine ⟨by rw [fieldVal_montMul (.inl h.reducedR), hc], ?_⟩
  rw [fieldVal_montSqr (squareTimes_is_reduced _ h.reducedC), hc, ← pow_mul, ← pow_succ,
    Nat.sub_add_cancel (Nat.sub_pos_of_lt hi)]

/-- From `m = n + 1` on, the loop multiplies `r` by a power of `c` with an exponent below `2 ^ n`. -/
theorem SqrtInv.sqrtLoop_eq_mul_pow {a : ZMod Config.q} {n fuel : Nat} {v : SqrtVars} {r : U256} (h : SqrtInv a n v)
    (hn : n ≤ Config.twoAdicity) (hfuel : n ≤ fuel) (hr : sqrtLoop fuel v = some r) :
    ∃ k < 2 ^ n, fieldVal r = fieldVal v.r * fieldVal v.c ^ k := by
  induction n using Nat.strong_induction_on generalizing fuel v with
  | _ n ih =>
    by_cases hw : v.w = Config.rOne
    · rw [sqrtLoop_done fuel hw] at hr
      exact ⟨0, by positivity, by rw [← Option.some.inj hr, pow_zero, mul_one]⟩
    · obtain ⟨i, hi, hsearch, hwi⟩ := h.orderSearch_eq_some hn hw
      cases fuel with
      | zero => omega
      | succ fuel =>
        rw [sqrtLoop_round hw hsearch] at hr
        obtain ⟨k, hk, hroot⟩ := ih i hi (h.update hi hwi) (by omega) (by omega) hr
        obtain ⟨hr', hc'⟩ := h.fieldVal_update hi
        exact ⟨_, round_exponent_lt hi hk, by rw [hroot, hr', hc', mul_assoc, ← pow_mul, ← pow_add]⟩

/-- The root the engine ends with, for an operand of Legendre symbol 1. -/
theorem sqrtVtWith_root_eq_mul_pow {c a v : U256} (hc : primitiveRoot c)
    (ha : powVt a Config.expLeg = Config.rOne) (hv : sqrtVtWith c a = .root v) :
    ∃ k < 2 ^ 31, fieldVal v = fieldVal a ^ Config.expTp1h.toNat * fieldVal c ^ k := by
  have hinv := sqrtInv_start hc ha
  obtain ⟨r, hr, -⟩ := hinv.sqrtLoop_eq_some (fuel := Config.twoAdicity) (by decide) (by decide)
  obtain ⟨k, hk, hroot⟩ := hinv.sqrtLoop_eq_mul_pow (by decide) (by decide) hr
  have hzero : Config.rOne ≠ U256.zero := by decide
  rw [sqrtVtWith_eq, if_neg (ha ▸ hzero), if_pos ha, hr, Option.elim_some] at hv
  exact ⟨k, hk, by rw [← SqrtResult.root.inj hv, hroot, fieldVal_powVt]⟩

/-- Powers of a primitive `2 ^ 32`-th root of unity with exponents below `2 ^ 31` are no negatives of each other. -/
theorem primitiveRoot_pow_ne_neg_pow {c : U256} (hc : primitiveRoot c) {k l : Nat} (hk : k < 2 ^ 31)
    (hl : l < 2 ^ 31) : fieldVal c ^ k ≠ -fieldVal c ^ l := by
  have : Fact Config.q.Prime := ⟨q_prime⟩
  have : Fact (2 < Config.q) := ⟨by decide⟩
  have hneg := fieldVal_primitiveRoot_pow hc
  have hne : ¬ fieldVal c ^ 2 ^ 31 = 1 := hneg ▸ ZMod.neg_one_ne_one
  have horder : orderOf (fieldVal c) = 2 ^ (31 + 1) :=
    orderOf_eq_prime_pow hne (by rw [pow_succ 2 31, pow_mul, hneg, neg_one_sq])
  intro heq
  have hpow : fieldVal c ^ k = fieldVal c ^ (2 ^ 31 + l) := by rw [pow_add, hneg, neg_one_mul, heq]
  have := pow_injOn_Iio_orderOf (by rw [horder, Set.mem_Iio]; omega) (by rw [horder, Set.mem_Iio]; omega) hpow
  omega

/-- The principal root of a square `s ^ 2` is `s` when `s ^ t` is the inverse of a power of `ROOT_OF_UNITY` with an
exponent below `2 ^ 31` (R203). -/
theorem sqrtVtWith_eq_root {c a s : U256} {k : Nat} (hc : primitiveRoot c) (ha : reduced a) (hs : reduced s)
    (hsq : fieldVal s ^ 2 = fieldVal a) (hk : k < 2 ^ 31)
    (hpow : fieldVal s ^ Config.expT.toNat * fieldVal c ^ k = 1) : sqrtVtWith c a = .root s := by
  have : Fact Config.q.Prime := ⟨q_prime⟩
  have hs0 : fieldVal s ≠ 0 := by
    intro h
    rw [h, zero_pow (by decide), zero_mul] at hpow
    exact zero_ne_one hpow
  have hres : isResidue (val a) := isResidue_val_iff.mpr ⟨hsq ▸ pow_ne_zero 2 hs0, fieldVal s, by rw [← hsq, sq]⟩
  have hleg := powVt_expLeg_eq_rOne_iff.mpr hres
  obtain ⟨v, hv, hvsq⟩ := sqrtVtWith_root hc hleg
  obtain ⟨l, hl, hroot⟩ := sqrtVtWith_root_eq_mul_pow hc hleg hv
  rw [hv, (fieldVal_inj (sqrtVtWith_root_is_reduced ha hv) hs).mp]
  refine (sq_eq_sq_iff_eq_or_eq_neg.mp (hvsq.trans hsq.symm)).resolve_right fun hneg => ?_
  obtain ⟨-, hTp1h⟩ := exponents_of_expT
  have hother : fieldVal s ^ Config.expT.toNat * fieldVal c ^ l = -1 := by
    apply mul_left_cancel₀ hs0
    calc fieldVal s * (fieldVal s ^ Config.expT.toNat * fieldVal c ^ l)
      _ = fieldVal s ^ (2 * Config.expTp1h.toNat) * fieldVal c ^ l := by
        rw [mul_comm 2, hTp1h, pow_succ', mul_assoc]
      _ = fieldVal v := by rw [hroot, ← hsq, pow_mul]
      _ = fieldVal s * -1 := by rw [hneg, mul_neg_one]
  apply primitiveRoot_pow_ne_neg_pow hc hl hk
  apply mul_left_cancel₀ (pow_ne_zero Config.expT.toNat hs0)
  rw [hother, mul_neg, hpow]

theorem fieldVal_mont (n : Nat) : fieldVal (mont n) = n := by
  rw [fieldVal, val_mont, ZMod.natCast_mod]

/-- The condition of `sqrtVtWith_eq_root` for the default `ROOT_OF_UNITY`, on numbers that the kernel evaluates. -/
theorem sqrtVt_mont_eq_root {n s : Nat} (k : Nat) (hk : k < 2 ^ 31) (hsq : s ^ 2 % Config.q = n % Config.q)
    (hpow : natPowMod s Config.q 255 Config.expT.toNat * natPowMod (val Config.rootOfUnity) Config.q 31 k % Config.q =
      1 % Config.q) : sqrtVt (mont n) = .root (mont s) := by
  have hmod : s ^ Config.expT.toNat * val Config.rootOfUnity ^ k ≡ 1 [MOD Config.q] :=
    ((natPowMod_modEq _ _ (by decide)).mul (natPowMod_modEq _ _ hk)).symm.trans hpow
  apply sqrtVtWith_eq_root rootOfUnityIsPrimitive (mont_reduced n) (mont_reduced s) _ hk
  · rw [fieldVal_mont, fieldVal]
    exact_mod_cast (ZMod.natCast_eq_natCast_iff _ _ _).mpr hmod
  · rw [fieldVal_mont, fieldVal_mont]
    exact_mod_cast (ZMod.natCast_eq_natCast_iff _ _ _).mpr hsq

/-- Settles O15: for each row, the exponent of `ROOT_OF_UNITY` that tells the root of the table from its negative. -/
theorem principalRootsOfSmallSquares : Obligations.PrincipalRootsOfSmallSquares := by
  unfold Obligations.PrincipalRootsOfSmallSquares
  exact ⟨sqrtVt_mont_eq_root 0 (by decide) (by decide) (by decide +kernel),
    sqrtVt_mont_eq_root 1395627600 (by decide) (by decide) (by decide +kernel),
    sqrtVt_mont_eq_root 2051790378 (by decide) (by decide) (by decide +kernel),
    sqrtVt_mont_eq_root 643771552 (by decide) (by decide) (by decide +kernel),
    sqrtVt_mont_eq_root 497071787 (by decide) (by decide) (by decide +kernel)⟩

end Sys2Proof.Machine
end

section
/-! The constant-time primitives `EQ` and `SEL` (spec/46_ct_primitives.md R220, R221). -/

namespace Sys2Proof.Machine

/-- Settles O30: the flag is the equality of the representatives, and a reduced representative is the only one of its
logical value. -/
theorem eqComparesElements : Obligations.EqComparesElements := by
  unfold Obligations.EqComparesElements
  intro ra rb s ha hb
  refine ⟨decode_commandWord (.eq ra rb), _, (exec_eq ra rb s).trans (execEq_eq ra rb s), ?_⟩
  have hval : readF s ra = readF s rb ↔ val (readF s ra) = val (readF s rb) := ⟨congrArg val, val_inj ha hb⟩
  rw [setEq_eqFlag, decide_eq_true_iff]
  exact ⟨Iff.rfl, hval, rfl, rfl, rfl, fun _ => rfl, fun _ => rfl, ⟨rfl, rfl⟩⟩

/-- Settles O31: the written value is one of the two operands, whichever way the flag stands. -/
theorem selPicksByEqFlag : Obligations.SelPicksByEqFlag := by
  unfold Obligations.SelPicksByEqFlag
  intro rd ra rb s
  refine ⟨decode_commandWord (.sel rd ra rb), _, (exec_sel rd ra rb s).trans (execSel_eq rd ra rb s), ?_⟩
  rw [readF_writeF_same]
  refine ⟨fun h => if_neg (Bool.eq_false_iff.mp h), fun h => if_pos h, fun ha hb => ?_, writesOnlyF_writeF ..⟩
  split
  · exact hb
  · exact ha

end Sys2Proof.Machine
end

section
/-! The events that run no command: none, a reset, an illegal value written to `CMD` (spec/60_exceptions.md R241, R252;
spec/70_reset_and_hazards.md R270). -/

namespace Sys2Proof.Machine

/-- Settles O40: with no event the block is idle. -/
theorem blockIsIdleWithoutHostEvent : Obligations.BlockIsIdleWithoutHostEvent := by
  unfold Obligations.BlockIsIdleWithoutHostEvent
  exact fun _ h => step_idle h

theorem step_illegal {s : State} {v : Word} {c : Cause} {rest : List HostEvent} (h : s.inbox = hostWr .cmd v :: rest)
    (hd : decode v = .illegal c) : step s = .next (raiseIllegal c (setInbox s rest)) := by
  rw [step_hostWr h, memWrite_cmd_of_illegal _ hd]

/-- Settles O34: the next state is `raiseIllegal` of the state with the event taken off. -/
theorem illegalCommandSetsIllAndCauseOnly : Obligations.IllegalCommandSetsIllAndCauseOnly := by
  unfold Obligations.IllegalCommandSetsIllAndCauseOnly
  intro s v c rest h hd
  exact ⟨_, step_illegal h hd, rfl, rfl, rfl, rfl, fun _ => rfl, fun _ => rfl, rfl, rfl⟩

theorem step_reset {s : State} {rest : List HostEvent} (h : s.inbox = .reset :: rest) :
    step s = .next (resetBlock (setInbox s rest)) := step_event h

@[simp] theorem readData_resetBlock (s : State) (i : Fin 4) : readData (resetBlock s) i = 0 := by
  simp [readData]

/-- Settles O42: the next state is `resetBlock` of the state with the event taken off. -/
theorem resetEventClearsTheBlock : Obligations.ResetEventClearsTheBlock := by
  unfold Obligations.ResetEventClearsTheBlock
  intro s rest h
  exact ⟨_, step_reset h, readF_resetBlock _, readData_resetBlock _, rfl, rfl, rfl, rfl, rfl, rfl⟩

end Sys2Proof.Machine
end

section
/-! The order of the illegal conditions (spec/60_exceptions.md R243): each condition over the fields of a value, and the
table `opUses`, against the decoder's own tests and tables (spec/30_encoding.md R71, R73, R79). -/

namespace Sys2Proof

open Sys2Proof.Machine

/-- The fields of a value written to `CMD`, as the decoder extracts them (R71). -/
def cmdFields (v : Word) : CmdFields := ⟨fieldOp v, fieldRd v, fieldRa v, fieldRb v, fieldRsv v⟩

/-- A field is the value shifted down to its column and cut to its width (R71). -/
theorem cmdFields_eq_ofNat (v : Word) :
    cmdFields v = ⟨BitVec.ofNat 8 v.toNat, BitVec.ofNat 4 (v.toNat / 2 ^ 8), BitVec.ofNat 4 (v.toNat / 2 ^ 12),
      BitVec.ofNat 4 (v.toNat / 2 ^ 16), BitVec.ofNat 12 (v.toNat / 2 ^ 20)⟩ := by
  simp only [cmdFields, fieldOp, fieldRd, fieldRa, fieldRb, fieldRsv, BitVec.extractLsb', Nat.shiftRight_eq_div_pow,
    pow_zero, Nat.div_one]

theorem cmdHigh_eq_zero {v : Word} (h : v.toNat < 2 ^ 32) : cmdHigh v = 0 := by
  rw [cmdHigh, BitVec.extractLsb', Nat.shiftRight_eq_div_pow, Nat.div_eq_of_lt h]
  rfl

/-- The independent table of used cells agrees with the opcode map on every byte (R73). -/
theorem opUses_eq_map (op : BitVec 8) :
    opUses op = (opcodeOf op).map fun o => (usesRd o, usesRa o, usesRb o) := by
  revert op
  decide

theorem opListed_cmdFields (v : Word) : (cmdFields v).opListed = (opcodeOf (fieldOp v)).isSome := by
  rw [CmdFields.opListed, cmdFields, opUses_eq_map, Option.isSome_map]

theorem rsvZero_cmdFields (v : Word) : (cmdFields v).rsvZero = (fieldRsv v == 0) := rfl

theorem unusedZero_cmdFields {v : Word} {o : Opcode} (h : opcodeOf (fieldOp v) = some o) :
    (cmdFields v).unusedZero = !unusedFieldSet o v := by
  simp [CmdFields.unusedZero, cmdFields, opUses_eq_map, h, unusedFieldSet, bne]

/-! The decoder's answer by the first condition that a value meets (R79). -/

theorem decode_badOpcode {v : Word} (hhigh : cmdHigh v = 0) (hop : (cmdFields v).opListed = false) :
    decode v = .illegal .badOpcode := by
  rw [opListed_cmdFields, Option.isSome_eq_false_iff, Option.isNone_iff_eq_none] at hop
  simp [decode, hhigh, hop]

theorem decode_rsvBits {v : Word} (hhigh : cmdHigh v = 0) (hop : (cmdFields v).opListed = true)
    (hrsv : (cmdFields v).rsvZero = false) : decode v = .illegal .rsvBits := by
  rw [opListed_cmdFields, Option.isSome_iff_exists] at hop
  obtain ⟨o, ho⟩ := hop
  rw [rsvZero_cmdFields, beq_eq_false_iff_ne] at hrsv
  rw [decode, if_neg (not_not.mpr hhigh), ho]
  exact if_pos hrsv

theorem decode_unusedField {v : Word} (hhigh : cmdHigh v = 0) (hop : (cmdFields v).opListed = true)
    (hrsv : (cmdFields v).rsvZero = true) (hunused : (cmdFields v).unusedZero = false) :
    decode v = .illegal .unusedField := by
  rw [opListed_cmdFields, Option.isSome_iff_exists] at hop
  obtain ⟨o, ho⟩ := hop
  rw [rsvZero_cmdFields, beq_iff_eq] at hrsv
  rw [unusedZero_cmdFields ho, Bool.not_eq_false'] at hunused
  simp [decode, hhigh, ho, hrsv, hunused]

theorem legalAs_of_wellFormed {v : Word} (hhigh : cmdHigh v = 0) (h : (cmdFields v).wellFormed = true) :
    ∃ o, LegalAs o v := by
  rw [CmdFields.wellFormed, Bool.and_eq_true, Bool.and_eq_true, opListed_cmdFields, Option.isSome_iff_exists] at h
  obtain ⟨⟨⟨o, ho⟩, hrsv⟩, hunused⟩ := h
  rw [rsvZero_cmdFields, beq_iff_eq] at hrsv
  rw [unusedZero_cmdFields ho, Bool.not_eq_true'] at hunused
  exact ⟨o, hhigh, (opcodeNumber_of_opcodeOf ho).symm, hrsv, hunused⟩

/-- Settles O4: the conditions over the fields are the decoder's tests, which it makes in the order of the causes. -/
theorem decoderReportsFirstCause : Obligations.DecoderReportsFirstCause := by
  unfold Obligations.DecoderReportsFirstCause
  intro v
  dsimp only
  rw [← cmdFields_eq_ofNat]
  refine ⟨fun h => decode_high (cmdHigh_ne_zero h), fun h => decode_badOpcode (cmdHigh_eq_zero h),
    fun h => decode_rsvBits (cmdHigh_eq_zero h), fun h => decode_unusedField (cmdHigh_eq_zero h), fun h hwf => ?_,
    rfl, rfl, rfl, rfl⟩
  obtain ⟨o, hlegal⟩ := legalAs_of_wellFormed (cmdHigh_eq_zero h) hwf
  exact ⟨_, decode_of_legalAs hlegal⟩

end Sys2Proof
end

section
/-! The engines with a log compute what the engines of the step compute (spec/70_reset_and_hazards.md R275), by the
recursion of each engine. -/

namespace Sys2Proof.Machine

theorem powCtLogLoop_fst (b e : U256) (n : Nat) (acc : U256) :
    (powCtLogLoop b e n acc).1 = powCtLoop b e n acc := by
  induction n generalizing acc with
  | zero => rfl
  | succ n ih => simp only [powCtLogLoop_succ, powCtLoop_succ, ih]

theorem powCtLog_fst (b e : U256) : (powCtLog b e).1 = powCt b e := by
  rw [powCtLog, powCt, powCtLogLoop_fst]

theorem powVtLogLoop_fst (b e : U256) (n : Nat) (acc : U256) :
    (powVtLogLoop b e n acc).1 = powVtLoop b e n acc := by
  induction n generalizing acc with
  | zero => rfl
  | succ n ih => simp only [powVtLogLoop_succ, powVtLoop_succ, ih]

theorem powVtLog_fst (b e : U256) : (powVtLog b e).1 = powVt b e := by
  rw [powVtLog, powVt, powVtLogLoop_fst]

/-! The square root (spec/45_sqrt.md R200). -/

theorem orderSearchLog_fst (fuel i : Nat) (t2 : U256) : (orderSearchLog fuel i t2).1 = orderSearch fuel i t2 := by
  induction fuel generalizing i t2 with
  | zero => rfl
  | succ fuel ih =>
    rw [orderSearchLog_succ, orderSearch_succ]
    split
    · rfl
    · exact ih _ _

theorem sqrtUpdateLog_eq (v : SqrtVars) (i : Nat) :
    sqrtUpdateLog v i = (sqrtUpdate v i, List.replicate (v.m - i - 1) .sqr ++ [.mul, .sqr, .mul]) := by
  simp only [sqrtUpdateLog, squareTimesLog, sqrtUpdate_eq, latch_eq]

theorem sqrtRoundLog_fst (v : SqrtVars) : (sqrtRoundLog v).1 = sqrtRound v := by
  simp only [sqrtRoundLog, sqrtRound, orderSearchLog_fst, sqrtUpdateLog_eq]
  cases orderSearch Config.twoAdicity 1 (montSqr v.w) <;> rfl

theorem sqrtLoopLog_fst (fuel : Nat) (v : SqrtVars) : (sqrtLoopLog fuel v).1 = sqrtLoop fuel v := by
  induction fuel generalizing v with
  | zero => rw [sqrtLoopLog, sqrtLoop]
  | succ fuel ih =>
    rw [sqrtLoopLog, sqrtLoop]
    split
    · rfl
    · simp only [sqrtRoundLog_fst]
      cases sqrtRound v with
      | none => rw [Option.elim_none, Option.elim_none]
      | some next => rw [Option.elim_some, Option.elim_some, ih]

/-- The loop of the engine with a log, from the variables of step 4 for the operand `a` (spec/45_sqrt.md R200). -/
def sqrtRefineLog (a : U256) : Option U256 × List TraceOp :=
  sqrtLoopLog Config.twoAdicity
    ⟨Config.rootOfUnity, powVt a Config.expTp1h, powVt a Config.expT, Config.twoAdicity⟩

/-- The steps of the engine with a log, by the Legendre symbol (spec/45_sqrt.md R200). -/
theorem sqrtVtLog_eq (a : U256) :
    sqrtVtLog a =
      if powVt a Config.expLeg = U256.zero then (.root a, powBitsTrace Config.expLeg ++ [.ceq])
      else if powVt a Config.expLeg = Config.rOne then
        ((sqrtRefineLog a).1.elim .diverges (fun r => .root r), powBitsTrace Config.expLeg ++ [.ceq, .ceq] ++
          powBitsTrace Config.expTp1h ++ powBitsTrace Config.expT ++ (sqrtRefineLog a).2)
      else (.noValue, powBitsTrace Config.expLeg ++ [.ceq, .ceq]) := by
  simp only [sqrtVtLog, latch_eq, powVtLog_fst, powVtLog_snd, ctEq_eq_decide, decide_eq_true_eq, Bool.not_eq_true',
    decide_eq_false_iff_not, ite_not, sqrtRefineLog]

theorem sqrtVtLog_fst (a : U256) : (sqrtVtLog a).1 = sqrtVt a := by
  rw [sqrtVtLog_eq, sqrtVt, sqrtVtWith_eq, sqrtRefineLog, sqrtLoopLog_fst]
  simp only [apply_ite Prod.fst]

/-! The canonicality test (spec/41_representation.md R123). -/

theorem ltLimbsLog_fst (limbs : List (Word × Word × Fin 4)) :
    (ltLimbsLog limbs).1 = ltLimbs (limbs.map fun limb => (limb.1, limb.2.1)) := by
  induction limbs with
  | nil => rfl
  | cons limb rest ih => simp only [ltLimbsLog, ltLimbs, List.map_cons, apply_ite Prod.fst, ih]

theorem ltModulusLog_fst (x : U256) : (ltModulusLog x).1 = ltModulus x := by
  rw [ltModulusLog, ltLimbsLog_fst]
  rfl

/-- Settles O53: the value half of each engine with a log. -/
theorem tracedEnginesComputeTheSame : Obligations.TracedEnginesComputeTheSame := by
  unfold Obligations.TracedEnginesComputeTheSame
  exact ⟨powCtLog_fst, powVtLog_fst, sqrtVtLog_fst, ltModulusLog_fst⟩

end Sys2Proof.Machine
end

section
/-! The traces of the commands that depend on no data, or on the bits of an exponent, and the constant-time contract
(spec/70_reset_and_hazards.md R274 to R278, R281). -/

namespace Sys2Proof.Machine

theorem trace_illegal {v : Word} {c : Cause} (s : State) (h : decode v = .illegal c) : trace s v = [] := by
  rw [trace, h]

theorem trace_commandWord (i : Instr) (s : State) :
    trace s (commandWord (opcodeNumber (opcodeOfInstr i)).toNat (rdField i) (raField i) (rbField i)) =
      instrTrace i s := trace_of_decode s (decode_commandWord i)

/-- Settles O60: each word is that of a command whose trace is written out. -/
theorem otherTracesAreSingleOperations : Obligations.OtherTracesAreSingleOperations := by
  unfold Obligations.OtherTracesAreSingleOperations
  intro rd ra rb s v
  exact ⟨fun c h => trace_illegal s h, trace_commandWord (.zero rd) s, trace_commandWord (.one rd) s,
    trace_commandWord (.fromu64 rd) s, trace_commandWord (.enc ra) s, trace_commandWord (.neg rd ra) s,
    trace_commandWord (.add rd ra rb) s, trace_commandWord (.sub rd ra rb) s, trace_commandWord (.mul rd ra rb) s,
    trace_commandWord (.sqr rd ra) s, trace_commandWord (.eq ra rb) s, trace_commandWord (.sel rd ra rb) s⟩

/-- Settles O55, by the operations of `pow_ct`. -/
theorem powcTraceIsFixed : Obligations.PowcTraceIsFixed := by
  unfold Obligations.PowcTraceIsFixed
  exact trace_powc

/-- Settles O57: the default schedule is `pow_ct` at the exponent `q - 2`, and its operations are those of `POWC`. -/
theorem invTraceIsFixed : Obligations.InvTraceIsFixed := by
  unfold Obligations.InvTraceIsFixed
  intro rd ra s
  refine ⟨trace_inv rd ra s, ?_⟩
  rw [trace_inv, Config.invSchedule, scheduleTrace, powCtLog_snd]

/-! The counts of `POWV` (R277), over any list of bit positions. -/

theorem count_sqr_bits (e : U256) (is : List Nat) :
    (is.flatMap fun i => if e.bit i then [TraceOp.sqr, .mul] else [.sqr]).count .sqr = is.length := by
  induction is with
  | nil => rfl
  | cons i is ih =>
    rw [List.flatMap_cons, List.count_append, ih, List.length_cons, Nat.add_comm]
    split <;> rfl

theorem count_mul_bits (e : U256) (is : List Nat) :
    (is.flatMap fun i => if e.bit i then [TraceOp.sqr, .mul] else [.sqr]).count .mul = is.countP e.bit := by
  induction is with
  | nil => rfl
  | cons i is ih =>
    rw [List.flatMap_cons, List.count_append, ih, List.countP_cons, Nat.add_comm]
    split <;> rfl

theorem count_sqr_powBitsTrace (e : U256) : (powBitsTrace e).count .sqr = 256 := by
  rw [powBitsTrace, count_sqr_bits, List.length_reverse, List.length_range]

theorem count_mul_powBitsTrace (e : U256) : (powBitsTrace e).count .mul = (List.range 256).countP e.bit := by
  rw [powBitsTrace, count_mul_bits, List.countP_reverse]

/-- Settles O56: one `SQR` for every bit position, one `MUL` for every position of a 1. -/
theorem powvTraceFollowsExponentBits : Obligations.PowvTraceFollowsExponentBits := by
  unfold Obligations.PowvTraceFollowsExponentBits
  intro rd ra s
  rw [trace_powv, count_mul_powBitsTrace]
  refine ⟨rfl, count_sqr_powBitsTrace _, List.countP_eq_length_filter, ?_⟩
  exact List.countP_le_length.trans_eq List.length_range

/-! The contract (R275). The engines stand as variables while the dispatch takes its branch, as those of `POWC` do. -/

theorem instrTrace_inv (rd ra : FReg) (s : State) : instrTrace (.inv rd ra) s = scheduleTrace Config.invSchedule := by
  rw [← trace_inv rd ra s]
  exact (trace_commandWord (.inv rd ra) s).symm

theorem instrTrace_dec (rd : FReg) (s : State) :
    instrTrace (.dec rd) s = (ltModulusLog (dataV s)).2 ++ if reduced (dataV s) then [.mul] else [] := by
  obtain ⟨engine, hengine⟩ : ∃ engine, engine = ltModulusLog := ⟨_, rfl⟩
  have htail : (engine (dataV s)).1 = true ↔ reduced (dataV s) := by rw [hengine, ltModulusLog_fst, ltModulus_iff]
  rw [instrTrace.eq_def, ← hengine]
  simp only [htail]

theorem instrTrace_sqrt (rd ra : FReg) (s : State) : instrTrace (.sqrt rd ra) s = (sqrtVtLog (readF s ra)).2 := by
  obtain ⟨engine, hengine⟩ : ∃ engine, engine = sqrtVtLog := ⟨_, rfl⟩
  rw [instrTrace.eq_def, ← hengine]

/-- The trace of a command depends on the public operand of a variable-time command and on no other data (R274). -/
theorem instrTrace_congr {i : Instr} {s t : State} (h : variableTime i = true → agreeOnPublic i s t) :
    instrTrace i s = instrTrace i t := by
  cases i with
  | dec rd =>
    have hdata : dataV s = dataV t := h rfl
    rw [instrTrace_dec, instrTrace_dec, hdata]
  | powv rd ra =>
    have hdata : dataV s = dataV t := h rfl
    rw [instrTrace_powv, instrTrace_powv, powVtLog_snd, powVtLog_snd, exponentOperand, exponentOperand, hdata]
  | sqrt rd ra =>
    have hreg : readF s ra = readF t ra := h rfl
    rw [instrTrace_sqrt, instrTrace_sqrt, hreg]
  | powc rd ra => rw [instrTrace_powc, instrTrace_powc, powCtLog_snd, powCtLog_snd]
  | inv rd ra => rw [instrTrace_inv, instrTrace_inv]
  | zero | one | fromu64 | enc | neg | add | sub | mul | sqr | eq | sel => rfl

/-- Settles O54: an illegal command has an empty trace, a legal one the trace of its command. -/
theorem constantTimeContract : Obligations.ConstantTimeContract := by
  unfold Obligations.ConstantTimeContract
  intro v s t
  refine ⟨fun c hd => ?_, fun i hd h => ?_⟩
  · rw [trace_illegal s hd, trace_illegal t hd]
  · rw [trace_of_decode s hd, trace_of_decode t hd, instrTrace_congr h]

end Sys2Proof.Machine
end

section
/-! The trace of `DEC` (spec/70_reset_and_hazards.md R280): the comparisons of `lt_modulus` end at the first limb that
differs. -/

namespace Sys2Proof.Machine

theorem ltLimbsLog_snd_of_ne {x m : Word} (i : Fin 4) (rest : List (Word × Word × Fin 4)) (h : x ≠ m) :
    (ltLimbsLog ((x, m, i) :: rest)).2 = [.cmpl i] := by
  have hlt_or_gt : x < m ∨ m < x := Nat.lt_or_gt_of_ne (BitVec.toNat_ne.mp h)
  rw [ltLimbsLog]
  rcases hlt_or_gt with hlt | hgt
  · rw [if_pos hlt]
  · rw [if_neg (BitVec.lt_asymm hgt), if_pos hgt]

theorem ltLimbsLog_snd_self (m : Word) (i : Fin 4) (rest : List (Word × Word × Fin 4)) :
    (ltLimbsLog ((m, m, i) :: rest)).2 = .cmpl i :: (ltLimbsLog rest).2 := by
  rw [ltLimbsLog, if_neg (BitVec.lt_irrefl m), if_neg (BitVec.lt_irrefl m)]

/-- After the last limb nothing is left to compare, whatever the outcome. -/
theorem ltLimbsLog_snd_last (x m : Word) (i : Fin 4) : (ltLimbsLog [(x, m, i)]).2 = [.cmpl i] := by
  by_cases h : x = m
  · rw [h, ltLimbsLog_snd_self, ltLimbsLog]
  · exact ltLimbsLog_snd_of_ne i [] h

theorem trace_dec (rd : FReg) (s : State) :
    trace s (commandWord 0x04 rd 0 0) =
      (ltModulusLog (dataV s)).2 ++ if (dataV s).toNat < Config.q then [.mul] else [] :=
  (trace_commandWord (.dec rd) s).trans (instrTrace_dec rd s)

/-- Settles O58, by the first limb that differs. -/
theorem decTraceStopsAtFirstDifference : Obligations.DecTraceStopsAtFirstDifference := by
  unfold Obligations.DecTraceStopsAtFirstDifference
  intro rd s
  dsimp only
  rw [trace_dec, ltModulusLog]
  refine ⟨fun h3 => ?_, fun h3 h2 => ?_, fun h3 h2 h1 => ?_, fun h3 h2 h1 => ?_⟩
  · rw [ltLimbsLog_snd_of_ne _ _ h3, List.singleton_append]
  · rw [h3, ltLimbsLog_snd_self, ltLimbsLog_snd_of_ne _ _ h2]
    rfl
  · rw [h3, h2, ltLimbsLog_snd_self, ltLimbsLog_snd_self, ltLimbsLog_snd_of_ne _ _ h1]
    rfl
  · rw [h3, h2, h1, ltLimbsLog_snd_self, ltLimbsLog_snd_self, ltLimbsLog_snd_self, ltLimbsLog_snd_last]
    rfl

end Sys2Proof.Machine
end

section
/-! The trace of `SQRT` (spec/70_reset_and_hazards.md R279): every round of the refinement loop ends with an order below
the one it starts from (spec/45_sqrt.md R202), so the orders of a run fall. -/

namespace Sys2Proof.Machine

/-- A search from the candidate `i` that finds `j` has failed on every candidate between. -/
theorem orderSearchLog_snd {fuel i j : Nat} {t2 : U256} (h : orderSearch fuel i t2 = some j) :
    i ≤ j ∧ (orderSearchLog fuel i t2).2 = (List.replicate (j - i) [TraceOp.ceq, .sqr]).flatten ++ [.ceq] := by
  induction fuel generalizing i t2 with
  | zero => cases h
  | succ fuel ih =>
    rw [orderSearch_succ] at h
    rw [orderSearchLog_succ]
    split_ifs at h ⊢
    · obtain rfl := Option.some.inj h
      simp
    · obtain ⟨hle, hops⟩ := ih h
      have hcount : j - i = j - (i + 1) + 1 := by omega
      refine ⟨Nat.le_of_succ_le hle, ?_⟩
      rw [hcount, List.replicate_succ, List.flatten_cons, List.append_assoc, ← hops]
      rfl

theorem sqrtRoundLog_eq {v : SqrtVars} {i : Nat} (hi : orderSearch Config.twoAdicity 1 (montSqr v.w) = some i) :
    sqrtRoundLog v = (some (sqrtUpdate v i), sqrtRoundTrace v.m i) := by
  obtain ⟨-, hops⟩ := orderSearchLog_snd hi
  simp [sqrtRoundLog, orderSearchLog_fst, hi, hops, sqrtUpdateLog_eq, sqrtRoundTrace]

theorem sqrtLoopLog_done (fuel : Nat) {v : SqrtVars} (hw : v.w = Config.rOne) : (sqrtLoopLog fuel v).2 = [.ceq] := by
  have h : ctEq v.w Config.rOne = true := (ctEq_iff _ _).mpr hw
  cases fuel <;> simp only [sqrtLoopLog, h, if_true]

theorem sqrtLoopLog_round {fuel i : Nat} {v : SqrtVars} (hw : v.w ≠ Config.rOne)
    (hi : orderSearch Config.twoAdicity 1 (montSqr v.w) = some i) :
    (sqrtLoopLog (fuel + 1) v).2 = sqrtRoundTrace v.m i ++ (sqrtLoopLog fuel (sqrtUpdate v i)).2 := by
  have h : ¬ ctEq v.w Config.rOne = true := (ctEq_iff _ _).not.mpr hw
  rw [sqrtLoopLog, if_neg h, sqrtRoundLog_eq hi]
  rfl

/-- The operations of the rounds for the successive orders `ms`, and the comparison that ends the loop (R279). -/
def sqrtRoundsTrace (ms : List Nat) : List TraceOp := (List.zipWith sqrtRoundTrace ms ms.tail).flatten ++ [.ceq]

/-- From `m = n + 1` on, the loop goes through at most `n` falling orders (spec/45_sqrt.md R202). -/
theorem SqrtInv.sqrtLoopLog_snd {a : ZMod Config.q} {n fuel : Nat} {v : SqrtVars} (h : SqrtInv a n v)
    (hn : n ≤ Config.twoAdicity) (hfuel : n ≤ fuel) :
    ∃ ms : List Nat, (v.m :: ms).IsChain (· > ·) ∧ (∀ m ∈ ms, 1 ≤ m) ∧ ms.length ≤ n ∧
      (sqrtLoopLog fuel v).2 = sqrtRoundsTrace (v.m :: ms) := by
  induction n using Nat.strong_induction_on generalizing fuel v with
  | _ n ih =>
    by_cases hw : v.w = Config.rOne
    · exact ⟨[], .singleton _, by simp, Nat.zero_le n, sqrtLoopLog_done fuel hw⟩
    · obtain ⟨k, hk, hi, hwk⟩ := h.orderSearch_eq_some hn hw
      cases fuel with
      | zero => omega
      | succ fuel =>
        have hnext := h.update hk hwk
        obtain ⟨ms, hchain, hpos, hlen, hops⟩ := ih k hk (fuel := fuel) hnext (by omega) (by omega)
        rw [hnext.m_eq] at hchain hops
        refine ⟨(k + 1) :: ms, .cons_cons ?_ hchain, List.forall_mem_cons.mpr ⟨by omega, hpos⟩, ?_, ?_⟩
        · rw [h.m_eq]; omega
        · rw [List.length_cons]; omega
        · rw [sqrtLoopLog_round hw hi, hops, sqrtRoundsTrace, ← List.append_assoc]
          rfl

theorem trace_sqrt (rd ra : FReg) (s : State) :
    trace s (commandWord 0x13 rd ra 0) = (sqrtVtLog (readF s ra)).2 :=
  (trace_commandWord (.sqrt rd ra) s).trans (instrTrace_sqrt rd ra s)

/-- Settles O59, by the three values of the Legendre symbol; on a residue the loop starts from the order 32. -/
theorem sqrtTraceFollowsTheRounds : Obligations.SqrtTraceFollowsTheRounds := by
  unfold Obligations.SqrtTraceFollowsTheRounds
  intro rd ra s _
  rw [trace_sqrt, sqrtVtLog_eq]
  rw [ne_eq, ← powVt_expLeg_eq_zero_iff, ← powVt_expLeg_eq_rOne_iff]
  refine ⟨fun hzero => ?_, fun hzero hres => ?_, fun hres => ?_⟩
  · rw [if_pos hzero]
  · rw [if_neg hzero, if_neg hres]
  · obtain ⟨ms, hchain, hpos, hlen, hops⟩ :=
      (sqrtInv_start rootOfUnityIsPrimitive hres).sqrtLoopLog_snd (fuel := Config.twoAdicity) (by decide) (by decide)
    have hzero : Config.rOne ≠ U256.zero := by decide
    refine ⟨ms, List.isChain_iff_pairwise.mp hchain, hpos, hlen, ?_⟩
    rw [if_neg (hres ▸ hzero), if_pos hres, sqrtRefineLog, hops, sqrtRoundsTrace]
    simp only [List.flatten_cons, List.flatten_nil, List.append_nil, List.append_assoc, List.tail_cons]

end Sys2Proof.Machine
end
